-- ==== Sys2Proof/Word.lean ====
section
/-! DEFINITION. The engine's data words (spec/00_scope.md R7, R8): bytes and byte sequences.
A byte sequence is a plain list, front (oldest, `s[0]`) first; `++`, `length`, `take` and `drop` are the list's own. -/

namespace Sys2Proof

/-- An 8-bit value (R8). -/
abbrev Byte := BitVec 8

/-- A finite, possibly empty list of bytes (R8): the value of a dictionary entry, of PREV and of OUTQ. -/
abbrev ByteSeq := List Byte

end Sys2Proof
end

