-- ==== Sys2Proof/Config.lean ====
section
/-! DEFINITION. The implementation parameters of spec/00_scope.md R6, one definition each.
The engine has no free value: no rule leaves a result open (93_implementation_defined.md Part 1).
The one OPEN parameter is IO_CODE_BITS (D2); see `Config.ioCodeBits`. -/

namespace Sys2Proof.Config

/-- INIT_CODESIZE: the width after a dictionary reset (R6, R140). -/
@[simp] abbrev initCodeSize : Nat := 9

/-- MAX_CODESIZE: the width never grows past it (R6, R150). -/
@[simp] abbrev maxCodeSize : Nat := 16

/-- LITERAL_MAX: codes 0..255 are literals (R6). -/
@[simp] abbrev literalMax : Nat := 255

/-- CLEAR_CODE (R6). -/
@[simp] abbrev clearCode : Nat := 256

/-- FIRST_CODE: the first dynamic code, the reset value of NEXT_CODE (R6). -/
@[simp] abbrev firstCode : Nat := 257

/-- DICT_CAPACITY and MAX_NEXT_CODE: dictionary indices are 0..65535 and NEXT_CODE stops at 65536 (R6, R149). -/
@[simp] abbrev dictCapacity : Nat := 65536

/-- BR_MAX_WIDTH: the widest legal bit-reader request (R6, R127). -/
@[simp] abbrev brMaxWidth : Nat := 64

/-- MAGIC: the three bytes of the header (R6, R92). -/
abbrev magic : ByteSeq := [0x1F, 0x9D, 0x90]

/-- READ_K_MAX (R6, R97). -/
abbrev readKMax : Nat := 16777215

/-- MAX_SEQ_LEN: no sequence of the dictionary is longer (R6, R153). -/
abbrev maxSeqLen : Nat := 65280

/-- IO_CODE_BITS (R6, D2): the width of the byte source's error code, OPEN in 1..24, default 8.
The model carries a code zero-extended to 24 bits, the width of ERRINFO, so that ONE model serves every
legal value of the parameter; this default is read by `Terminator.fits` alone. -/
abbrev ioCodeBits : Nat := 8

end Sys2Proof.Config
end

