-- ==== Sys2Proof/Syntax.lean ====
section
/-! DEFINITION. The instructions of the engine, one constructor per row of spec/opcode_table.json, and the raw words
(formats of spec/30_encoding.md R90) they are read from. -/

namespace Sys2Proof

/-- One constructor per row of the opcode table.
The first five are the classes of a `CODE(w)` (R103), the next six the classes of a `CMD32` word (R104),
then the two of a `BR_REQ` (R101) and the engine's request to the byte source (R61). -/
inductive Instr where
  /-- CLEAR, code 256 (R145). -/
  | clear
  /-- LIT, a code 0..255, standing for the byte of the same value (R144). -/
  | lit (b : Byte)
  /-- DICT, a code naming a dynamic dictionary entry (R146). -/
  | dict (code : BitVec 16)
  /-- KWKWK, the code equal to NEXT_CODE while PREV is non-empty (R147). -/
  | kwkwk (code : BitVec 16)
  /-- ILLEGAL_CODE, an unknown code: it raises a data error (R148). -/
  | illegalCode (code : BitVec 16)
  /-- INIT RAW (R182). -/
  | initRaw
  /-- INIT HDR (R183). -/
  | initHdr
  /-- READ k (R184 to R187). -/
  | read (k : BitVec 24)
  /-- RELEASE (R188). -/
  | release
  /-- STATUS (R189). -/
  | status
  /-- ILLEGAL_CMD, any other command word (R190). -/
  | illegalCmd (word : BitVec 32)
  /-- BR.GET, a bit-reader request of at most 64 bits (R121). -/
  | brGet (n : BitVec 7)
  /-- BR.GET (refused), a request of more than 64 bits (R127). -/
  | brGetRefused (n : BitVec 7)
  /-- SRC.PULL, one request to the byte source (R61). -/
  | srcPull
deriving DecidableEq, Repr

/-- An undecoded word of one of the engine's request formats (R90). -/
inductive RawWord where
  /-- `CODE(w)`, zero-extended to 16 bits for classification (R93, R94). -/
  | code (c : BitVec 16)
  /-- `CMD32`, a host command word (R95). -/
  | cmd (w : BitVec 32)
  /-- `BR_REQ`, the width operand of `BR.get` (R101). -/
  | brReq (n : BitVec 7)
  /-- `SrcPull()`, a request with no operand (R61). -/
  | srcPull
deriving DecidableEq, Repr

/-- What the classification of a code reads beside the code (R103): NEXT_CODE and whether PREV is empty, both at the
start of the step. -/
structure DecodeCtx where
  nextCode  : BitVec 17
  prevEmpty : Bool
deriving DecidableEq, Repr

/-- Why `decodeBits` rejects a number as a word of the engine. -/
inductive DecodeError where
  /-- No format of R90 has this many bits. -/
  | noSuchFormat
  /-- The number does not fit the format's bits. -/
  | tooWide
deriving DecidableEq, Repr

/-- An item of the assembler text for code streams (R110, R112). -/
inductive AsmItem where
  /-- `.magic`, legal only as the first item. -/
  | magic
  /-- `LIT n` and its character form. -/
  | lit (n : Byte)
  /-- `CLEAR`. -/
  | clear
  /-- `CODE n`. -/
  | code (n : BitVec 16)
deriving DecidableEq, Repr

end Sys2Proof
end

