-- ==== Sys2Proof/WellFormed.lean ====
section
/-! DEFINITION. Which instruction terms stand for a word of the opcode table.
`Instr.wf` is the part of a row's condition that the operands alone decide; `Instr.legalIn` adds the part that
NEXT_CODE and PREV decide (R103). -/

namespace Sys2Proof

/-- R104, R106: the command words that a row above ILLEGAL_CMD matches. -/
def legalCmdWord (w : BitVec 32) : Bool :=
  w == 0x10000000#32 || w == 0x10000001#32
    || (w &&& 0xFF000000#32 == 0x20000000#32 && w.setWidth 24 != 0#24)
    || w == 0x30000000#32 || w == 0x40000000#32

/-- The operands alone meet the row's condition. -/
def Instr.wf : Instr → Bool
  | .clear => true
  | .lit _ => true
  | .dict c => 257 ≤ c.toNat
  | .kwkwk c => 257 ≤ c.toNat
  | .illegalCode c => 257 ≤ c.toNat
  | .initRaw => true
  | .initHdr => true
  | .read k => k != 0#24
  | .release => true
  | .status => true
  | .illegalCmd w => !legalCmdWord w
  | .brGet n => n.toNat ≤ 64
  | .brGetRefused n => 64 < n.toNat
  | .srcPull => true

/-- The state-dependent conditions of R103, for the three rows that have one. -/
def Instr.legalIn (ctx : DecodeCtx) : Instr → Bool
  | .clear => true
  | .lit _ => true
  | .dict c => c.toNat < ctx.nextCode.toNat
  | .kwkwk c => c.toNat == ctx.nextCode.toNat && !ctx.prevEmpty
  | .illegalCode c => ctx.nextCode.toNat < c.toNat || (c.toNat == ctx.nextCode.toNat && ctx.prevEmpty)
  | .initRaw => true
  | .initHdr => true
  | .read _ => true
  | .release => true
  | .status => true
  | .illegalCmd _ => true
  | .brGet _ => true
  | .brGetRefused _ => true
  | .srcPull => true

end Sys2Proof
end

