-- ==== Sys2Proof/Decode.lean ====
section
/-! DEFINITION. Decoding (spec/30_encoding.md): from a raw word to an instruction, total, every word of every format
having a meaning (R103, R104, R101); and the encoder, written from the same tables.
The bit order of the code stream (20_memory.md R63, R94) is here too. -/

namespace Sys2Proof

/-! ### Fields and numbers (R7) -/

/-- R7 `bitlen(x)`, for `x ≥ 1`. -/
def bitlen (x : Nat) : Nat := Nat.log2 x + 1

/-- R95 `OP` = [31:28]. -/
def cmdOp (w : BitVec 32) : BitVec 4 := w.extractLsb' 28 4

/-- R95: the operand field [27:0]. -/
def cmdOperand (w : BitVec 32) : BitVec 28 := w.extractLsb' 0 28

/-- R96: INIT's reserved field [27:1]. -/
def initReserved (w : BitVec 32) : BitVec 27 := w.extractLsb' 1 27

/-- R96 `HDR` = [0]. -/
def initHdrBit (w : BitVec 32) : BitVec 1 := w.extractLsb' 0 1

/-- R97: READ's reserved field [27:24]. -/
def readReserved (w : BitVec 32) : BitVec 4 := w.extractLsb' 24 4

/-- R97 `K` = [23:0]. -/
def readK (w : BitVec 32) : BitVec 24 := w.extractLsb' 0 24

/-! ### The decoder -/

/-- R95 to R98, R104, R106: the class of a host command word, read field by field.
A word that names no command is ILLEGAL_CMD. -/
def decodeCmd (w : BitVec 32) : Instr :=
  if cmdOp w = 1#4 then
    if initReserved w = 0#27 then
      if initHdrBit w = 0#1 then .initRaw else .initHdr
    else .illegalCmd w
  else if cmdOp w = 2#4 then
    if readReserved w = 0#4 ∧ readK w ≠ 0#24 then .read (readK w) else .illegalCmd w
  else if cmdOp w = 3#4 then
    if cmdOperand w = 0#28 then .release else .illegalCmd w
  else if cmdOp w = 4#4 then
    if cmdOperand w = 0#28 then .status else .illegalCmd w
  else .illegalCmd w

/-- R103: the class of a code, in the table's priority order. -/
def decodeCode (ctx : DecodeCtx) (code : BitVec 16) : Instr :=
  if code.toNat = Config.clearCode then .clear
  else if code.toNat ≤ Config.literalMax then .lit (code.setWidth 8)
  else if code.toNat < ctx.nextCode.toNat then .dict code
  else if code.toNat = ctx.nextCode.toNat ∧ ctx.prevEmpty = false then .kwkwk code
  else .illegalCode code

/-- R101, R127: a bit-reader request. -/
def decodeBrReq (n : BitVec 7) : Instr :=
  if n.toNat ≤ Config.brMaxWidth then .brGet n else .brGetRefused n

/-- The decoder: total on every word of every format. -/
def decode (ctx : DecodeCtx) : RawWord → Instr
  | .code c => decodeCode ctx c
  | .cmd w => decodeCmd w
  | .brReq n => decodeBrReq n
  | .srcPull => .srcPull

/-- A word given as a number of `nbits` bits: the format is the one of R90 with that many bits
(`CODE(w)` 9 to 16, `CMD32` 32, `BR_REQ` 7 or its byte, `SrcPull()` none). -/
def rawOfBits (nbits w : Nat) : Except DecodeError RawWord :=
  if nbits = 0 then if w = 0 then .ok .srcPull else .error .tooWide
  else if nbits = 7 ∨ nbits = 8 then if w < 128 then .ok (.brReq (BitVec.ofNat 7 w)) else .error .tooWide
  else if 9 ≤ nbits ∧ nbits ≤ 16 then if w < 2 ^ nbits then .ok (.code (BitVec.ofNat 16 w)) else .error .tooWide
  else if nbits = 32 then if w < 2 ^ 32 then .ok (.cmd (BitVec.ofNat 32 w)) else .error .tooWide
  else .error .noSuchFormat

/-- Decoding a number of `nbits` bits, rejecting by name what no format of R90 holds. -/
def decodeBits (ctx : DecodeCtx) (nbits w : Nat) : Except DecodeError Instr :=
  (rawOfBits nbits w).map (decode ctx)

/-- The classification context of the machine after reset (R36): NEXT_CODE 257, PREV empty. -/
def DecodeCtx.atReset : DecodeCtx := { nextCode := 257#17, prevEmpty := true }

/-- The instruction the decoder reads from a word of the opcode table; a code is classified as it is right after
reset, where no dynamic entry exists yet (log entry 6). -/
def decodeTableWord (nbits w : Nat) : Option Instr :=
  match decodeBits DecodeCtx.atReset nbits w with
  | .ok i => some i
  | .error _ => none

/-! ### The encoder -/

/-- R93, R95 to R98, R101: the word of an instruction. -/
def encode : Instr → RawWord
  | .clear => .code 0x100#16
  | .lit b => .code (b.setWidth 16)
  | .dict c => .code c
  | .kwkwk c => .code c
  | .illegalCode c => .code c
  | .initRaw => .cmd 0x10000000#32
  | .initHdr => .cmd 0x10000001#32
  | .read k => .cmd (0x20000000#32 ||| k.setWidth 32)
  | .release => .cmd 0x30000000#32
  | .status => .cmd 0x40000000#32
  | .illegalCmd w => .cmd w
  | .brGet n => .brReq n
  | .brGetRefused n => .brReq n
  | .srcPull => .srcPull

/-! ### The bit order of the code stream (R63, R94) -/

/-- The `n` low bits of `v`, bit 0 first: the order in which a code's bits stand in the stream (R94). -/
def bitsOf (v : Nat) : Nat → List Bool
  | 0 => []
  | n + 1 => (v % 2 == 1) :: bitsOf (v / 2) n

/-- R94: the number whose bit `i` is the `i`-th element. -/
def valueOfBits : List Bool → Nat
  | [] => 0
  | b :: bs => b.toNat + 2 * valueOfBits bs

/-- R63: the bits of a byte string in stream order, bit 0 of each byte first. -/
def streamBits (bytes : ByteSeq) : List Bool :=
  bytes.flatMap (fun b => bitsOf b.toNat 8)

/-- R63, R110: bits packed into bytes, bit 0 of each byte first, the final byte padded with zero bits. -/
def packBits : List Bool → ByteSeq
  | b0 :: b1 :: b2 :: b3 :: b4 :: b5 :: b6 :: b7 :: rest =>
    BitVec.ofNat 8 (valueOfBits [b0, b1, b2, b3, b4, b5, b6, b7]) :: packBits rest
  | [] => []
  | bs => [BitVec.ofNat 8 (valueOfBits bs)]

/-- R108: the width the `j`-th code of an error-free epoch is read at, `j` from 0. -/
def epochWidth (j : Nat) : Nat :=
  min 16 (bitlen (min 65536 (257 + (j - 1))))

end Sys2Proof
end

