-- ==== Sys2Proof/Machine/State.lean ====
section
/-! DEFINITION. The machine's state as plain data: every element of spec/10_state.md R20, and the two agents the engine
talks to (R5), held as the inputs and outputs of a step: the byte source (R62), the host's pending requests and the
answers given so far (R180). -/

namespace Sys2Proof.Machine

/-- `ST`, the engine phase (R23). -/
inductive Phase where
  | uninit
  | ready
  | eos
  | fault
deriving DecidableEq, Repr

/-- `ERR`, the error kind recorded by a fault (R24). -/
inductive ErrKind where
  | none
  | format
  | data
  | io
deriving DecidableEq, Repr

/-- What the byte source answers once its bytes are used up (R62), or that it never answers (R223). -/
inductive Terminator where
  /-- `END`, on this and every later request. -/
  | eof
  /-- `ERR(e)`, on this and every later request; `e` zero-extended to the 24 bits of ERRINFO. -/
  | err (e : BitVec 24)
  /-- No answer: the engine waits (R223). -/
  | silent
deriving DecidableEq, Repr

/-- One answer to `SrcPull()`, the format `SRC_RESP` (R61, R102). -/
inductive SrcResp where
  | byte (b : Byte)
  | eof
  | err (e : BitVec 24)
deriving DecidableEq, Repr

/-- The byte source as R62 models it: the bytes still to come, then the terminator.
`pulls` counts the answers given since the last INIT and `taken` the bytes among them; nothing in the engine reads
the two counts (log entry 5). -/
structure Source where
  bytes : ByteSeq
  term  : Terminator
  pulls : Nat
  taken : Nat
deriving DecidableEq, Repr

/-- The result of `BR.get` (R121, R129): a sum, never a value with a sentinel. -/
inductive BrResult where
  | value (v : BitVec 64)
  | noData
  | ioErr (e : BitVec 24)
deriving DecidableEq, Repr

/-- A request waiting to be executed.
The host sends only `cmd`; the other three run one part of the engine on its own (log entry 3). -/
inductive Request where
  /-- A host transaction (R180): the `CMD32` word, and the byte source the host hands over with an INIT (R194). -/
  | cmd (w : BitVec 32) (hand : Option Source)
  /-- One decode step `advance()` (R141). -/
  | decodeStep
  /-- A `BR_REQ` to the bit reader (R101). -/
  | brReq (n : BitVec 7)
  /-- A `SrcPull()` to the byte source (R61). -/
  | srcPull
deriving DecidableEq, Repr

/-- The answer to one request. -/
inductive Response where
  /-- The answer to a host command (R99): the `RESP32` word, READ's data part, STATUS's words W0, W1, W2. -/
  | host (resp : BitVec 32) (data : ByteSeq) (status : List (BitVec 32))
  /-- The bit reader's result (R129). -/
  | bits (r : BrResult)
  /-- The byte source's answer (R102). -/
  | source (r : SrcResp)
deriving DecidableEq, Repr

/-- The dynamic part of the dictionary as (index, sequence) pairs: indices strictly rising, all in 257..65535
(`Memory.wf`). An index that is not listed reads as R27 says: the literal, the CLEAR placeholder, or no entry. -/
abbrev Memory := List (Nat × ByteSeq)

/-- The whole state. The first ten fields are the elements of R20 (BITQ as its two registers, R29); the last four are
the agents'. -/
structure State where
  /-- `ST` (R23). -/
  st       : Phase
  /-- `ERR` (R24). -/
  err      : ErrKind
  /-- `ERRINFO` (R24). -/
  errInfo  : BitVec 24
  /-- `CODESIZE` (R25). -/
  codeSize : BitVec 5
  /-- `NEXT_CODE` (R26). -/
  nextCode : BitVec 17
  /-- `DICT` (R27). -/
  dict     : Memory
  /-- `PREV` (R28). -/
  prev     : ByteSeq
  /-- `BITBUF`: bit `i < BITCNT` is the `i`-th oldest unconsumed bit (R29). -/
  bitBuf   : BitVec 72
  /-- `BITCNT` (R29). -/
  bitCnt   : BitVec 7
  /-- `OUTQ` (R30), front first. -/
  outQ     : ByteSeq
  /-- The byte source the host has bound (R61, R62). -/
  src      : Source
  /-- Requests not yet executed, the next one first. -/
  inbox    : List Request
  /-- Answers given, the oldest first. -/
  outbox   : List Response
deriving DecidableEq, Repr

/-- Why the machine stops. Neither is the engine's phase FAULT, which is a next state (R216). -/
inductive Fault where
  /-- Raised by a pull that the byte source never answers (R223): the engine has no step. Safe: the model stops where
  the hardware waits. -/
  | sourceSilent
  /-- Raised by DICT when a code below NEXT_CODE names no entry, or an empty one. R153 shows that no run gets there;
  R27 gives such an index no content. Safe: the model stops. -/
  | noEntry
deriving DecidableEq, Repr

/-- Why a request is not taken. -/
inductive Refusal where
  /-- Raised by `exec` for an instruction that has no meaning yet. Safe. -/
  | notModelled (mnemonic : String)
  /-- BR_WIDTH, raised by `BR.get(n)` with `n > 64` (R127, R220). Safe. -/
  | brWidth
  /-- Raised by a decode step outside `ST = READY`, where R141 gives it no effect. Safe. -/
  | notReady
  /-- Raised by a code instruction whose row of R103 does not hold in this state, which the decoder never hands out.
  Safe. -/
  | classMismatch
deriving DecidableEq, Repr

/-- A source that delivers nothing and answers END. -/
def Source.empty : Source := { bytes := [], term := .eof, pulls := 0, taken := 0 }

/-- Power-on (R36 first column, R241). The agents' fields: nothing requested, nothing answered, an empty source
(log entry 4). -/
def State.reset : State where
  st       := .uninit
  err      := .none
  errInfo  := 0#24
  codeSize := 9#5
  nextCode := 257#17
  dict     := []
  prev     := []
  bitBuf   := 0#72
  bitCnt   := 0#7
  outQ     := []
  src      := Source.empty
  inbox    := []
  outbox   := []

end Sys2Proof.Machine
end

