-- ==== Sys2Proof/Machine/Operands.lean ====
section
/-! DEFINITION. Operand and result formats: the bit codes of ST, ERR and RC, and the `RESP32` word
(spec/30_encoding.md R99, R100). The fields of command words are in Decode.lean. -/

namespace Sys2Proof.Machine

/-- The 2-bit encoding of ST (R20, R23). -/
def Phase.bits : Phase → BitVec 2
  | .uninit => 0#2
  | .ready => 1#2
  | .eos => 2#2
  | .fault => 3#2

/-- The 2-bit encoding of ERR (R20, R24). -/
def ErrKind.bits : ErrKind → BitVec 2
  | .none => 0#2
  | .format => 1#2
  | .data => 2#2
  | .io => 3#2

/-- R100: the result codes. -/
def rcOk : BitVec 4 := 0#4
def rcIllegalCmd : BitVec 4 := 4#4
def rcNotOpen : BitVec 4 := 5#4

/-- R100: the result code of an error kind; codes 1 to 3 equal the ERR encoding. -/
def ErrKind.rc (e : ErrKind) : BitVec 4 := e.bits.setWidth 4

/-- R99: `RC` in [3:0], `COUNT` in [27:4], the rest 0. -/
def resp32 (rc : BitVec 4) (count : BitVec 24) : BitVec 32 :=
  rc.setWidth 32 ||| (count.setWidth 32 <<< 4)

/-- R99: the `RC` field. -/
def respRc (w : BitVec 32) : BitVec 4 := w.extractLsb' 0 4

/-- R99: the `COUNT` field. -/
def respCount (w : BitVec 32) : BitVec 24 := w.extractLsb' 4 24

/-- D2: the error codes of a source whose codes have `bits` bits. -/
def Terminator.fits (bits : Nat := Config.ioCodeBits) : Terminator → Bool
  | .eof => true
  | .err e => e.toNat < 2 ^ bits
  | .silent => true

end Sys2Proof.Machine
end

