-- ==== Sys2Proof/Machine/Flags.lean ====
section
/-! DEFINITION. The three status flags (spec/10_state.md R31), each a function of the state, and the status words W0, W1,
W2 (R32 to R35). The engine has no condition codes. -/

namespace Sys2Proof.Machine

/-- R31: the EOS flag. -/
def State.eosFlag (s : State) : Bool := s.st == .eos

/-- R31: the FAULT flag. -/
def State.faultFlag (s : State) : Bool := s.st == .fault

/-- R31: PREV_VALID. -/
def State.prevValid (s : State) : Bool := !s.prev.isEmpty

/-- R32: ST in [1:0], ERR in [3:2], CODESIZE in [8:4], NEXT_CODE in [25:9], PREV_VALID in [26], [31:27] read 0. -/
def State.w0 (s : State) : BitVec 32 :=
  s.st.bits.setWidth 32
    ||| (s.err.bits.setWidth 32 <<< 2)
    ||| (s.codeSize.setWidth 32 <<< 4)
    ||| (s.nextCode.setWidth 32 <<< 9)
    ||| ((BitVec.ofBool s.prevValid).setWidth 32 <<< 26)

/-- R33: ERRINFO in [23:0], [31:24] read 0. -/
def State.w1 (s : State) : BitVec 32 := s.errInfo.setWidth 32

/-- R34: OUT_PENDING = len(OUTQ) in [16:0], BITCNT in [23:17], [31:24] read 0. -/
def State.w2 (s : State) : BitVec 32 :=
  (BitVec.ofNat 17 s.outQ.length).setWidth 32 ||| (s.bitCnt.setWidth 32 <<< 17)

end Sys2Proof.Machine
end

