-- ==== Sys2Proof/Machine/Ops.lean ====
section
/-! DEFINITION. The named operations the instructions share: the dictionary, the byte source, the dictionary reset, the
insertion with its width rule, emission, fault entry and responses. -/

namespace Sys2Proof.Machine

/-! ### The dictionary (R27, R68) -/

/-- The canonical form: indices strictly rising, all dynamic (R68). -/
abbrev Memory.wf (d : Memory) : Prop :=
  (d.map Prod.fst).Pairwise (· < ·) ∧ ∀ e ∈ d, 257 ≤ e.1 ∧ e.1 < 65536

/-- The dynamic entry at an index, if there is one. -/
def Memory.dynamic : Memory → Nat → Option ByteSeq
  | [], _ => none
  | (k, v) :: rest, c => if k = c then some v else Memory.dynamic rest c

/-- `DICT[c]` (R9, R27): a literal, the CLEAR placeholder, a dynamic entry, or `none` where there is no entry. -/
def Memory.read (d : Memory) (c : Nat) : Option ByteSeq :=
  if c ≤ Config.literalMax then some [BitVec.ofNat 8 c]
  else if c = Config.clearCode then some []
  else d.dynamic c

/-- Insertion that keeps the indices rising. -/
def Memory.put : Memory → Nat → ByteSeq → Memory
  | [], c, v => [(c, v)]
  | (k, w) :: rest, c, v =>
    if c < k then (c, v) :: (k, w) :: rest
    else if c = k then (c, v) :: rest
    else (k, w) :: Memory.put rest c v

/-- `DICT[c] <- v` (R9). Only a dynamic index is ever written: 0..256 are written by reset alone and no index is
above 65535 (R68). -/
def Memory.write (d : Memory) (c : Nat) (v : ByteSeq) : Memory :=
  if Config.firstCode ≤ c ∧ c < Config.dictCapacity then d.put c v else d

/-! ### The byte source (R61, R62, R66) -/

/-- One `SrcPull()`: the answer and the source after it, or `none` when the source never answers (R223). -/
def Source.pull (q : Source) : Option (SrcResp × Source) :=
  match q.bytes with
  | b :: rest => some (.byte b, { q with bytes := rest, pulls := q.pulls + 1, taken := q.taken + 1 })
  | [] =>
    match q.term with
    | .eof => some (.eof, { q with pulls := q.pulls + 1 })
    | .err e => some (.err e, { q with pulls := q.pulls + 1 })
    | .silent => none

/-- The counts start again with a stream (R22: bytes pulled "since INIT"). -/
def Source.restart (q : Source) : Source := { q with pulls := 0, taken := 0 }

/-! ### Resets (R140, R182, R188) -/

/-- `reset_dict()` (R140): the base dictionary, PREV empty, CODESIZE 9, NEXT_CODE 257, and nothing else. -/
def State.resetDict (s : State) : State :=
  { s with
    dict := [], prev := []
    codeSize := BitVec.ofNat 5 Config.initCodeSize, nextCode := BitVec.ofNat 17 Config.firstCode }

/-- The part of INIT before its header check (R242 steps 1 and 2). -/
def State.newStream (s : State) : State :=
  { s with bitBuf := 0#72, bitCnt := 0#7, outQ := [], err := .none, errInfo := 0#24, src := s.src.restart }.resetDict

/-- Every element of R20 at its power-on value (R188, R241); the agents' fields stay. -/
def State.powerOn (s : State) : State :=
  { State.reset with src := s.src, inbox := s.inbox, outbox := s.outbox }

/-! ### Fault entry (R216) and its leaving (R217) -/

/-- `raise E(info)` (R216): ST, ERR and ERRINFO, and nothing else.
There is no return from a fault: FAULT is left only by INIT and RELEASE (R217), which are `State.newStream` and
`State.powerOn` above. -/
def State.raise (k : ErrKind) (info : BitVec 24) (s : State) : State :=
  { s with st := .fault, err := k, errInfo := info }

/-! ### Insertion, PREV and emission (R149 to R152) -/

/-- R150, right after an insertion. -/
def State.growWidth (s : State) : State :=
  if s.nextCode.toNat = 2 ^ s.codeSize.toNat ∧ s.codeSize.toNat < Config.maxCodeSize then
    { s with codeSize := s.codeSize + 1#5 }
  else s

/-- R149: the insertion made from the old PREV and the first byte of the resolved sequence; nothing when PREV is
empty or the dictionary is full. -/
def State.insert (first : Byte) (s : State) : State :=
  if s.prev ≠ [] ∧ s.nextCode.toNat < Config.dictCapacity then
    { s with
      dict := s.dict.write s.nextCode.toNat (s.prev ++ [first])
      nextCode := s.nextCode + 1#17 }.growWidth
  else s

/-- R151 and R152: `PREV <- seq`, then `Emit(seq)`. -/
def State.emit (seq : ByteSeq) (s : State) : State :=
  { s with prev := seq, outQ := s.outQ ++ seq }

/-- The tail of a decode step that resolved the non-empty sequence `first :: rest` (R141 from the insertion on). -/
def State.accept (first : Byte) (rest : ByteSeq) (s : State) : State :=
  (s.insert first).emit (first :: rest)

/-! ### Responses (R99, R180) -/

/-- Answering one request. -/
def State.answer (r : Response) (s : State) : State :=
  { s with outbox := s.outbox ++ [r] }

/-- A response with no data part and COUNT 0. -/
def State.respond (rc : BitVec 4) (s : State) : State :=
  s.answer (.host (resp32 rc 0#24) [] [])

/-- The response of a command that raised: the RC of the recorded error, COUNT 0 (R183, R184). -/
def State.respondErr (s : State) : State := s.respond s.err.rc

/-- What the classification of a code reads (R103). -/
def State.ctx (s : State) : DecodeCtx := { nextCode := s.nextCode, prevEmpty := s.prev.isEmpty }

end Sys2Proof.Machine
end

