-- ==== Sys2Proof/Machine/BitReader.lean ====
section
/-! DEFINITION. The bit reader (spec/40_bit_reader.md) and the byte-source request (spec/20_memory.md R61): `BR.get(n)`
and the meanings of BR.GET, BR.GET (refused) and SRC.PULL. -/

namespace Sys2Proof.Machine

/-- How the pull loop of R121 ends. -/
inductive FillEnd where
  /-- `n` bits are buffered. -/
  | enough
  /-- The source answered END first (R124). -/
  | atEnd
  /-- The source answered ERR(e) first (R128). -/
  | ioErr (e : BitVec 24)
  /-- The source never answers (R223). -/
  | blocked
deriving DecidableEq, Repr

/-- The bit reader's registers with what is left of the source. -/
structure Fill where
  stop   : FillEnd
  bitBuf : BitVec 72
  bitCnt : BitVec 7
  src    : Source
deriving DecidableEq, Repr

/-- R122: appending a pulled byte at the back of BITQ. -/
def appendByte (buf : BitVec 72) (cnt : BitVec 7) (b : Byte) : BitVec 72 :=
  buf ||| (b.setWidth 72 <<< cnt.toNat)

/-- The loop `while BITCNT < n` of R121, one `SrcPull()` per round (R125), over the bytes still to come. -/
def fill (n : Nat) (term : Terminator) : ByteSeq → BitVec 72 → BitVec 7 → Nat → Nat → Fill
  | [], buf, cnt, pulls, taken =>
    if n ≤ cnt.toNat then ⟨.enough, buf, cnt, ⟨[], term, pulls, taken⟩⟩
    else
      match term with
      | .eof => ⟨.atEnd, buf, cnt, ⟨[], term, pulls + 1, taken⟩⟩
      | .err e => ⟨.ioErr e, buf, cnt, ⟨[], term, pulls + 1, taken⟩⟩
      | .silent => ⟨.blocked, buf, cnt, ⟨[], term, pulls, taken⟩⟩
  | b :: rest, buf, cnt, pulls, taken =>
    if n ≤ cnt.toNat then ⟨.enough, buf, cnt, ⟨b :: rest, term, pulls, taken⟩⟩
    else fill n term rest (appendByte buf cnt b) (cnt + 8#7) (pulls + 1) (taken + 1)

/-- The pull loop on the machine's state. -/
def State.fill (n : Nat) (s : State) : Fill :=
  Machine.fill n s.src.term s.src.bytes s.bitBuf s.bitCnt s.src.pulls s.src.taken

/-- `BR.get(n)` for `n ≤ 64` (R121): the result and the state after it, or `none` while the source does not
answer (R223). -/
def State.brGet (n : Nat) (s : State) : Option (BrResult × State) :=
  let f := s.fill n
  match f.stop with
  | .enough =>
    some (.value (BitVec.ofNat 64 (f.bitBuf.toNat % 2 ^ n)),
      { s with bitBuf := f.bitBuf >>> n, bitCnt := f.bitCnt - BitVec.ofNat 7 n, src := f.src })
  | .atEnd => some (.noData, { s with bitBuf := f.bitBuf, bitCnt := f.bitCnt, src := f.src })
  | .ioErr e => some (.ioErr e, { s with bitBuf := f.bitBuf, bitCnt := f.bitCnt, src := f.src })
  | .blocked => none

/-- BITQ as the queue of R29, front first. -/
def State.bitQ (s : State) : List Bool := bitsOf s.bitBuf.toNat s.bitCnt.toNat

/-- The bits not yet consumed: those in BITQ and those still in the source. -/
def State.bitsLeft (s : State) : Nat := s.bitCnt.toNat + 8 * s.src.bytes.length

/-- R22: the stream cursor, for a stream opened with or without the header. -/
def State.cursor (hdr : Bool) (s : State) : Int :=
  8 * (s.src.taken : Int) - s.bitCnt.toNat - (if hdr then 24 else 0)

/-- BR.GET (R121): the result goes to the requester (R129); a width above 64 is refused before any pull (R127). -/
def execBrGet (n : BitVec 7) (s : State) : Host.Outcome State Fault Refusal :=
  if n.toNat ≤ Config.brMaxWidth then
    match s.brGet n.toNat with
    | some (r, s') => .next (s'.answer (.bits r))
    | none => .fault .sourceSilent
  else .refused .brWidth

/-- BR.GET (refused) (R127, R220): no result, no pull, the refusal BR_WIDTH. -/
def execBrGetRefused (_n : BitVec 7) (_s : State) : Host.Outcome State Fault Refusal :=
  .refused .brWidth

/-- SRC.PULL (R61): one request, one answer; a byte answered is consumed for good (R66). -/
def execSrcPull (s : State) : Host.Outcome State Fault Refusal :=
  match s.src.pull with
  | some (r, q) => .next ({ s with src := q }.answer (.source r))
  | none => .fault .sourceSilent

end Sys2Proof.Machine
end

