-- ==== Sys2Proof/Machine/Decoder.lean ====
section
/-! DEFINITION. The decoder (spec/41_decoder_codes.md): the meanings of the five code classes and the decode step
`advance()`. A code instruction is the part of a decode step after the code fetch; it runs only in READY (R141). -/

namespace Sys2Proof.Machine

/-- R141's precondition, shared by the five classes. -/
def whenReady (s : State) (next : Host.Outcome State Fault Refusal) : Host.Outcome State Fault Refusal :=
  if s.st = .ready then next else .refused .notReady

/-- LIT (R144): `seq <- DICT[code]`, then insertion, PREV and emission. -/
def execLit (b : Byte) (s : State) : Host.Outcome State Fault Refusal :=
  whenReady s <|
    match s.dict.read b.toNat with
    | some (first :: rest) => .next (s.accept first rest)
    | some [] => .fault .noEntry
    | none => .fault .noEntry

/-- CLEAR (R145): `reset_dict()` and nothing else. -/
def execClear (s : State) : Host.Outcome State Fault Refusal :=
  whenReady s (.next s.resetDict)

/-- DICT (R146): `seq <- DICT[code]`, then insertion, PREV and emission. -/
def execDict (code : BitVec 16) (s : State) : Host.Outcome State Fault Refusal :=
  whenReady s <|
    if Config.firstCode ≤ code.toNat ∧ code.toNat < s.nextCode.toNat then
      match s.dict.read code.toNat with
      | some (first :: rest) => .next (s.accept first rest)
      | some [] => .fault .noEntry
      | none => .fault .noEntry
    else .refused .classMismatch

/-- KWKWK (R147): `seq <- PREV ++ [PREV[0]]`; the insertion then writes the entry at index `code`, once. -/
def execKwkwk (code : BitVec 16) (s : State) : Host.Outcome State Fault Refusal :=
  whenReady s <|
    if Config.firstCode ≤ code.toNat ∧ code.toNat = s.nextCode.toNat then
      match s.prev with
      | first :: rest => .next (s.accept first (rest ++ [first]))
      | [] => .refused .classMismatch
    else .refused .classMismatch

/-- ILLEGAL_CODE (R148, R212): `raise DataError(code)`. -/
def execIllegalCode (code : BitVec 16) (s : State) : Host.Outcome State Fault Refusal :=
  whenReady s <|
    if Config.firstCode ≤ code.toNat
        ∧ (s.nextCode.toNat < code.toNat ∨ (code.toNat = s.nextCode.toNat ∧ s.prev = [])) then
      .next (s.raise .data (code.setWidth 24))
    else .refused .classMismatch

/-- The class rules of R143, as one table over the instruction the decoder gave. -/
def runCode (i : Instr) (s : State) : Host.Outcome State Fault Refusal :=
  match i with
  | .clear => execClear s
  | .lit b => execLit b s
  | .dict c => execDict c s
  | .kwkwk c => execKwkwk c s
  | .illegalCode c => execIllegalCode c s
  | .initRaw => .refused .classMismatch
  | .initHdr => .refused .classMismatch
  | .read _ => .refused .classMismatch
  | .release => .refused .classMismatch
  | .status => .refused .classMismatch
  | .illegalCmd _ => .refused .classMismatch
  | .brGet _ => .refused .classMismatch
  | .brGetRefused _ => .refused .classMismatch
  | .srcPull => .refused .classMismatch

/-- What the code fetch of a decode step gives (R142). -/
inductive CodeFetch where
  /-- A code, classified, and the state with its bits consumed. -/
  | code (i : Instr) (s : State)
  /-- The step ends at the fetch. -/
  | stop (o : Host.Outcome State Fault Refusal)

/-- R142 and R143: read a code of width CODESIZE and classify it.
No data ends the stream; `IOERR(e)` raises an I/O error (R214). -/
def State.fetchCode (s : State) : CodeFetch :=
  if s.st = .ready then
    match s.brGet s.codeSize.toNat with
    | some (.value v, s') => .code (decodeCode s'.ctx (v.setWidth 16)) s'
    | some (.noData, s') => .stop (.next { s' with st := .eos })
    | some (.ioErr e, s') => .stop (.next (s'.raise .io e))
    | none => .stop (.fault .sourceSilent)
  else .stop (.refused .notReady)

/-- One decode step `advance()` (R141). -/
def advance (s : State) : Host.Outcome State Fault Refusal :=
  match s.fetchCode with
  | .code i s' => runCode i s'
  | .stop o => o

end Sys2Proof.Machine
end

