-- ==== Sys2Proof/Machine/HostCommands.lean ====
section
/-! DEFINITION. The host commands (spec/42_host_commands.md): INIT RAW, INIT HDR, READ, RELEASE, STATUS and the response
to an illegal command word. Each ends by answering the host exactly once (R180). -/

namespace Sys2Proof.Machine

/-- INIT RAW (R182): a new stream, no byte pulled. -/
def execInitRaw (s : State) : Host.Outcome State Fault Refusal :=
  .next ({ s.newStream with st := .ready }.respond rcOk)

/-- How the header pulls of R183 end. -/
inductive HeaderEnd where
  /-- All bytes asked for have arrived. -/
  | got (bytes : ByteSeq)
  /-- The source ended first (R213): how many bytes had arrived. -/
  | short (count : Nat)
  /-- The source failed first (R214). -/
  | ioErr (e : BitVec 24)
  /-- The source never answers (R223). -/
  | blocked
deriving DecidableEq, Repr

/-- `repeat n times: r <- SrcPull()` of R183, with the bytes got so far. -/
def pullHeader : Nat → ByteSeq → Source → HeaderEnd × Source
  | 0, got, q => (.got got, q)
  | n + 1, got, q =>
    match q.pull with
    | some (.byte b, q') => pullHeader n (got ++ [b]) q'
    | some (.eof, q') => (.short got.length, q')
    | some (.err e, q') => (.ioErr e, q')
    | none => (.blocked, q)

/-- INIT HDR (R183, R242): a new stream, then the three header bytes, compared only after all three have arrived. -/
def execInitHdr (s : State) : Host.Outcome State Fault Refusal :=
  let s0 := s.newStream
  match pullHeader 3 [] s0.src with
  | (.got bytes, q) =>
    if bytes = Config.magic then .next ({ s0 with src := q, st := .ready }.respond rcOk)
    else .next ({ s0 with src := q }.raise .format (BitVec.ofNat 24 bytes.length)).respondErr
  | (.short count, q) => .next ({ s0 with src := q }.raise .format (BitVec.ofNat 24 count)).respondErr
  | (.ioErr e, q) => .next ({ s0 with src := q }.raise .io e).respondErr
  | (.blocked, _) => .fault .sourceSilent

/-- The loop of R185: decode steps while fewer than `k` bytes are queued and the stream is open.
`fuel` bounds the rounds; `readFuel` is always enough (each round consumes stream bits or emits a byte). -/
def readLoop : Nat → Nat → State → Host.Outcome State Fault Refusal
  | 0, _, s => .next s
  | fuel + 1, k, s =>
    if s.outQ.length < k ∧ s.st = .ready then
      match advance s with
      | .next s' => readLoop fuel k s'
      | .fault r => .fault r
      | .refused r => .refused r
    else .next s

/-- A bound on the rounds of the loop. -/
def State.readFuel (k : Nat) (s : State) : Nat := k + s.bitsLeft + 1

/-- The result code of a READ that ran its loop: the error's if a decode step raised one (R186), else OK. -/
def State.readRc (s : State) : BitVec 4 :=
  if s.st = .fault then s.err.rc else rcOk

/-- The delivery of R185: the first `min(len(OUTQ), k)` bytes leave OUTQ as the data part. -/
def State.deliver (k : Nat) (s : State) : State :=
  { s with outQ := s.outQ.drop k }.answer
    (.host (resp32 s.readRc (BitVec.ofNat 24 (min s.outQ.length k))) (s.outQ.take k) [])

/-- READ k (R184 to R187). -/
def execRead (k : BitVec 24) (s : State) : Host.Outcome State Fault Refusal :=
  match s.st with
  | .uninit => .next (s.respond rcNotOpen)
  | .fault => .next s.respondErr
  | .ready | .eos =>
    match readLoop (s.readFuel k.toNat) k.toNat s with
    | .next s' => .next (s'.deliver k.toNat)
    | .fault r => .fault r
    | .refused r => .refused r

/-- RELEASE (R188): power-on values, whatever the phase was. -/
def execRelease (s : State) : Host.Outcome State Fault Refusal :=
  .next (s.powerOn.respond rcOk)

/-- STATUS (R189): OK and the three words, read from the current state. -/
def execStatus (s : State) : Host.Outcome State Fault Refusal :=
  .next (s.answer (.host (resp32 rcOk 0#24) [] [s.w0, s.w1, s.w2]))

/-- ILLEGAL_CMD (R190, R215): a refusal of the word answered to the host, with no state change. -/
def execIllegalCmd (_w : BitVec 32) (s : State) : Host.Outcome State Fault Refusal :=
  .next (s.respond rcIllegalCmd)

end Sys2Proof.Machine
end

