-- ==== Sys2Proof/Machine/Dispatch.lean ====
section
/-! DEFINITION. One arm per instruction. -/

namespace Sys2Proof.Machine

def exec (i : Instr) (s : State) : Host.Outcome State Fault Refusal :=
  match i with
  | .clear => Sys2Proof.Machine.execClear s
  | .lit b => Sys2Proof.Machine.execLit b s
  | .dict code => Sys2Proof.Machine.execDict code s
  | .kwkwk code => Sys2Proof.Machine.execKwkwk code s
  | .illegalCode code => Sys2Proof.Machine.execIllegalCode code s
  | .initRaw => Sys2Proof.Machine.execInitRaw s
  | .initHdr => Sys2Proof.Machine.execInitHdr s
  | .read k => Sys2Proof.Machine.execRead k s
  | .release => Sys2Proof.Machine.execRelease s
  | .status => Sys2Proof.Machine.execStatus s
  | .illegalCmd word => Sys2Proof.Machine.execIllegalCmd word s
  | .brGet n => Sys2Proof.Machine.execBrGet n s
  | .brGetRefused n => Sys2Proof.Machine.execBrGetRefused n s
  | .srcPull => Sys2Proof.Machine.execSrcPull s

end Sys2Proof.Machine
end

