-- ==== Sys2Proof/Machine/Fetch.lean ====
section
/-! DEFINITION. Fetching the next instruction: the request at the front of the inbox, decoded, with the state it runs
in; and how a table word is placed where the next fetch reads it. -/

namespace Sys2Proof.Machine

/-- What the next step runs. -/
inductive Fetched where
  /-- An instruction and the state it runs in. -/
  | run (i : Instr) (s : State)
  /-- The step ends without an instruction. -/
  | stop (o : Host.Outcome State Fault Refusal)

/-- R194: the source the host hands over with an INIT becomes the bound source. With any other command the source
stays: the host does not move it between INIT and RELEASE (D32). -/
def State.handOver (i : Instr) (hand : Option Source) (s : State) : State :=
  match i, hand with
  | .initRaw, some q => { s with src := q }
  | .initHdr, some q => { s with src := q }
  | _, _ => s

/-- The next instruction and the state it runs in. With no request the engine waits (log entry 3). -/
def State.fetch (s : State) : Fetched :=
  match s.inbox with
  | [] => .stop (.next s)
  | .cmd w hand :: rest => .run (decodeCmd w) ({ s with inbox := rest }.handOver (decodeCmd w) hand)
  | .decodeStep :: rest =>
    match { s with inbox := rest }.fetchCode with
    | .code i s' => .run i s'
    | .stop o => .stop o
  | .brReq n :: rest => .run (decodeBrReq n) { s with inbox := rest }
  | .srcPull :: rest => .run .srcPull { s with inbox := rest }

/-- The least width from 9 to 16 that holds `w`, and not less than `size`. -/
def widthFor (size : BitVec 5) (w : Nat) : BitVec 5 :=
  if 2 ^ size.toNat ≤ w then BitVec.ofNat 5 (bitlen w) else size

/-- A table word placed for the next step: a command, a bit-reader request or a pull at the front of the inbox; a code
as the front of BITQ with a decode step at the front of the inbox, the stream open and CODESIZE wide enough
(log entry 7). -/
def State.place (r : RawWord) (s : State) : State :=
  match r with
  | .cmd w => { s with inbox := .cmd w none :: s.inbox }
  | .brReq n => { s with inbox := .brReq n :: s.inbox }
  | .srcPull => { s with inbox := .srcPull :: s.inbox }
  | .code c =>
    { s with
      inbox := .decodeStep :: s.inbox
      st := .ready
      codeSize := widthFor s.codeSize c.toNat
      bitBuf := c.setWidth 72
      bitCnt := (widthFor s.codeSize c.toNat).setWidth 7 }

/-- `State.place` for a word given as a number of `nbits` bits. -/
def State.placeBits (s : State) (nbits w : Nat) : State :=
  match rawOfBits nbits w with
  | .ok r => s.place r
  | .error _ => s

end Sys2Proof.Machine
end

