-- ==== Sys2Proof/Machine/Assembler.lean ====
section
/-! DEFINITION. The assembler text of spec/30_encoding.md R110 to R112 as lists of characters: reading the items of a
code stream, packing them into bytes at the widths of R108, and the text of host commands and responses. Nothing in the
machine reads this file. -/

namespace Sys2Proof.Machine

/-! ### Packing a program (R110) -/

/-- The code value of an item; `.magic` has none. -/
def AsmItem.value : AsmItem → Option (BitVec 16)
  | .magic => none
  | .lit n => some (n.setWidth 16)
  | .clear => some 256#16
  | .code n => some n

/-- The stream bits of a list of codes, `j` counting the codes of the current epoch (R108): a CLEAR is read at its
epoch's width and the code after it starts a new epoch (R247). -/
def codeStreamBits : Nat → List (BitVec 16) → List Bool
  | _, [] => []
  | j, c :: rest =>
    bitsOf c.toNat (epochWidth j) ++ codeStreamBits (if c.toNat = Config.clearCode then 0 else j + 1) rest

/-- R91, R110: the bytes of a program; `.magic` is accepted as the first item only. -/
def assemble (items : List AsmItem) : Option ByteSeq :=
  match items with
  | .magic :: rest => (rest.mapM AsmItem.value).map (fun cs => Config.magic ++ packBits (codeStreamBits 0 cs))
  | _ => (items.mapM AsmItem.value).map (fun cs => packBits (codeStreamBits 0 cs))

/-! ### Reading the text -/

/-- The text from its next character that is neither blank nor in a `;` comment; a comment ends with its line. -/
def skipBlanks : Bool → List Char → List Char
  | _, [] => []
  | true, c :: cs => if c = '\n' then skipBlanks false cs else skipBlanks true cs
  | false, c :: cs =>
    if c = ' ' ∨ c = '\n' ∨ c = '\t' then skipBlanks false cs
    else if c = ';' then skipBlanks true cs
    else c :: cs

/-- A decimal number, at least one digit, and the text after it. -/
def readDecimal (cs : List Char) : Option (Nat × List Char) :=
  let digits := cs.takeWhile (fun c => '0' ≤ c && c ≤ '9')
  if digits = [] then none
  else some (digits.foldl (fun n c => 10 * n + (c.toNat - '0'.toNat)) 0, cs.drop digits.length)

/-- R110, R112: one item and the text after it; the spelling of keywords, characters and numbers is log entry 16's. -/
def readItem (cs : List Char) : Option (AsmItem × List Char) :=
  match cs with
  | '.' :: 'm' :: 'a' :: 'g' :: 'i' :: 'c' :: rest => some (.magic, rest)
  | 'C' :: 'L' :: 'E' :: 'A' :: 'R' :: rest => some (.clear, rest)
  | 'L' :: 'I' :: 'T' :: ' ' :: rest =>
    match skipBlanks false rest with
    | '\'' :: c :: '\'' :: rest' => if c.toNat < 128 then some (.lit (BitVec.ofNat 8 c.toNat), rest') else none
    | rest' =>
      match readDecimal rest' with
      | some (n, after) => if n < 256 then some (.lit (BitVec.ofNat 8 n), after) else none
      | none => none
  | 'C' :: 'O' :: 'D' :: 'E' :: ' ' :: rest =>
    match readDecimal (skipBlanks false rest) with
    | some (n, after) => if n < 65536 then some (.code (BitVec.ofNat 16 n), after) else none
    | none => none
  | _ => none

/-- The items of a text, on one line or several; `fuel` bounds their number.
DESIGN CHOICE (log entry 16): R110 does not say what stands between two items; blanks, line ends and comments may, and
none is needed, so `CLEARCLEAR` reads as two items and `LIT 1CODE 2` too. Safe: no step reads text. -/
def readItems : Nat → List Char → Option (List AsmItem)
  | 0, cs => if skipBlanks false cs = [] then some [] else none
  | fuel + 1, cs =>
    match skipBlanks false cs with
    | [] => some []
    | cs' => (readItem cs').bind (fun p => (readItems fuel p.2).map (p.1 :: ·))

/-- R110: the text of a program; an item has at least one character. -/
def readProgram (cs : List Char) : Option (List AsmItem) := readItems cs.length cs

/-- R111: one host line. -/
def readHostLine (line : List Char) : Option Instr :=
  match line with
  | ['I', 'N', 'I', 'T', ' ', 'R', 'A', 'W'] => some .initRaw
  | ['I', 'N', 'I', 'T', ' ', 'H', 'D', 'R'] => some .initHdr
  | ['R', 'E', 'L', 'E', 'A', 'S', 'E'] => some .release
  | ['S', 'T', 'A', 'T', 'U', 'S'] => some .status
  | 'R' :: 'E' :: 'A' :: 'D' :: ' ' :: digits =>
    match readDecimal digits with
    | some (k, []) => if 1 ≤ k ∧ k ≤ Config.readKMax then some (.read (BitVec.ofNat 24 k)) else none
    | _ => none
  | _ => none

/-! ### Writing responses (R111) -/

/-- R100: the names of the result codes; codes 6 to 15 are never produced. -/
def rcName (rc : BitVec 4) : List Char :=
  match rc.toNat with
  | 0 => ['O', 'K']
  | 1 => ['F', 'O', 'R', 'M', 'A', 'T', '_', 'E', 'R', 'R']
  | 2 => ['D', 'A', 'T', 'A', '_', 'E', 'R', 'R']
  | 3 => ['I', 'O', '_', 'E', 'R', 'R']
  | 4 => ['I', 'L', 'L', 'E', 'G', 'A', 'L', '_', 'C', 'M', 'D']
  | 5 => ['N', 'O', 'T', '_', 'O', 'P', 'E', 'N']
  | _ => []

/-- A 32-bit word as `0x` and eight hexadecimal digits.
DESIGN CHOICE (log entry 9): R111 gives no form for the words; the width and the upper-case digits are those of the
spec's own examples, such as `0x000A0000` in R189. Safe: no step reads text. -/
def hexWord (w : BitVec 32) : List Char :=
  '0' :: 'x' :: [28, 24, 20, 16, 12, 8, 4, 0].map (fun lo => (Nat.digitChar (w.extractLsb' lo 4).toNat).toUpper)

/-- R111: `-> RC COUNT "bytes"`, or `-> OK W0 W1 W2` for STATUS. -/
def writeResponse (r : Response) : Option (List Char) :=
  match r with
  | .host w data [] =>
    some (['-', '>', ' '] ++ rcName (respRc w) ++ [' '] ++ Nat.toDigits 10 (respCount w).toNat ++ [' ', '"']
      ++ data.map (fun b => Char.ofNat b.toNat) ++ ['"'])
  | .host w _ words => some (['-', '>', ' '] ++ rcName (respRc w) ++ words.flatMap (fun v => ' ' :: hexWord v))
  | .bits _ => none
  | .source _ => none

end Sys2Proof.Machine
end

