-- ==== Sys2Proof/Machine/Realisation.lean ====
section
/-! DEFINITION. The hardware realisation that spec/10_state.md R37 to R39 allow (informative, D23): dynamic entries as
(parent code, appended byte) pairs, PREV as a valid bit and a code, OUTQ as a count of the last bytes of PREV. Nothing
in the machine reads this file; claims say that it refines the abstract state. -/

namespace Sys2Proof.Machine

/-- The pairs of R37: the element at position `i` belongs to index `257 + i`. -/
abbrev Chain := List (BitVec 16 × Byte)

/-- R37: a sequence, materialised by walking the parent chain for at most `fuel` links. -/
def Chain.walk (chain : Chain) : Nat → Nat → ByteSeq
  | 0, _ => []
  | fuel + 1, c =>
    if c ≤ Config.literalMax then [BitVec.ofNat 8 c]
    else if c = Config.clearCode then []
    else
      match chain[c - Config.firstCode]? with
      | some (p, x) => Chain.walk chain fuel p.toNat ++ [x]
      | none => []

/-- R37: the sequence of a code; parents are smaller codes, so `c + 1` links are enough. -/
def Chain.materialise (chain : Chain) (c : Nat) : ByteSeq := chain.walk (c + 1) c

/-- Every parent is an entry made earlier, and not the CLEAR placeholder (R153 item 2). -/
def Chain.ok (chain : Chain) : Prop :=
  ∀ i p x, chain[i]? = some (p, x) → p.toNat < 257 + i ∧ p.toNat ≠ 256

/-- R37: the correctness condition, for every index below NEXT_CODE. -/
def Chain.represents (chain : Chain) (s : State) : Prop :=
  chain.ok ∧ chain.length = s.nextCode.toNat - 257
    ∧ ∀ c, c < s.nextCode.toNat → s.dict.read c = some (chain.materialise c)

/-- R38: PREV from a valid bit and a code. -/
def prevOf (s : State) (valid : Bool) (code : BitVec 16) : Option ByteSeq :=
  if valid then s.dict.read code.toNat else some []

/-- R39: OUTQ from a count, the last `rem` bytes of PREV. -/
def outOf (prev : ByteSeq) (rem : BitVec 16) : ByteSeq := prev.drop (prev.length - rem.toNat)

end Sys2Proof.Machine
end

