-- ==== Sys2Proof/Safety.lean ====
section
/-! DEFINITION. The terms claims are stated in: the invariants of a run, what a resolved code changes, and runs of several
instructions. A run is safe when every step keeps `State.Inv`; a run in which the host alone sends requests keeps
`State.HostInv` too. -/

namespace Sys2Proof

/-- The five code classes of R103. -/
def Instr.isCode : Instr → Bool
  | .clear => true
  | .lit _ => true
  | .dict _ => true
  | .kwkwk _ => true
  | .illegalCode _ => true
  | .initRaw => false
  | .initHdr => false
  | .read _ => false
  | .release => false
  | .status => false
  | .illegalCmd _ => false
  | .brGet _ => false
  | .brGetRefused _ => false
  | .srcPull => false

/-- The classes that resolve to a sequence (R149): LIT, DICT and KWKWK. -/
def Instr.resolves (i : Instr) : Bool := i.isCode && i != .clear && (match i with | .illegalCode _ => false | _ => true)

/-- The host commands and the illegal word (R104). -/
def Instr.isHost (i : Instr) : Bool :=
  match encode i with
  | .cmd _ => true
  | .code _ => false
  | .brReq _ => false
  | .srcPull => false

end Sys2Proof

namespace Sys2Proof.Machine

/-- The next state of an outcome, if it has one. -/
def nextOf : Host.Outcome State Fault Refusal → Option State
  | .next s => some s
  | .fault _ => none
  | .refused _ => none

/-- A request of the host (R180), as opposed to one that runs a part of the engine on its own. -/
def Request.isHost : Request → Bool
  | .cmd _ _ => true
  | .decodeStep => false
  | .brReq _ => false
  | .srcPull => false

/-! ### Invariants -/

/-- Every element of R20 at its power-on value (R36 first column). -/
structure State.AtPowerOn (s : State) : Prop where
  st       : s.st = .uninit
  err      : s.err = .none
  errInfo  : s.errInfo = 0#24
  codeSize : s.codeSize.toNat = 9
  nextCode : s.nextCode.toNat = 257
  literal  : ∀ b : Byte, s.dict.read b.toNat = some [b]
  clear    : s.dict.read 256 = some []
  noEntry  : ∀ c, 257 ≤ c → s.dict.read c = none
  prev     : s.prev = []
  bitBuf   : s.bitBuf = 0#72
  bitCnt   : s.bitCnt = 0#7
  outQ     : s.outQ = []

/-- What every step keeps, whoever sent the request (R24 to R29, R108, R131, R153). -/
structure State.Inv (s : State) : Prop where
  /-- R26, R153 item 1: the entries are exactly 0..NEXT_CODE-1, in the canonical form. -/
  entries  : s.dict.map Prod.fst = List.range' 257 (s.nextCode.toNat - 257)
  /-- R26. -/
  nextLow  : 257 ≤ s.nextCode.toNat
  nextHigh : s.nextCode.toNat ≤ 65536
  /-- R108, R153 item 6. -/
  width    : s.codeSize.toNat = min 16 (bitlen s.nextCode.toNat)
  /-- R153 item 2: a dynamic entry is an earlier entry, not the placeholder, with one byte appended. -/
  grown    : ∀ e ∈ s.dict, e.2 ≠ [] ∧ ∃ p, p < e.1 ∧ p ≠ 256 ∧ s.dict.read p = some e.2.dropLast
  /-- R153 item 4. -/
  fresh    : s.prev = [] → s.nextCode.toNat = 257
  /-- R28: a non-empty PREV is the sequence of an entry. -/
  prev     : s.prev ≠ [] → ∃ p, p < s.nextCode.toNat ∧ p ≠ 256 ∧ s.dict.read p = some s.prev
  /-- R29: the bits of BITBUF at and above BITCNT are 0. -/
  bitsHigh : s.bitBuf.toNat < 2 ^ s.bitCnt.toNat
  /-- R29, R131. -/
  bitsMax  : s.bitCnt.toNat ≤ 71
  /-- R24. -/
  noErr    : s.st ≠ .fault → s.err = .none ∧ s.errInfo = 0#24
  someErr  : s.st = .fault → s.err ≠ .none

/-- What every step keeps when the host alone sends requests: the state between host commands
(R30, R34, R131, R187, R192). -/
structure State.HostInv (s : State) : Prop where
  inv     : s.Inv
  host    : ∀ r ∈ s.inbox, r.isHost = true
  /-- R192: OUTQ is empty or a proper suffix of PREV. -/
  out     : s.outQ = [] ∨ ∃ front, front ≠ [] ∧ s.prev = front ++ s.outQ
  /-- R187, R186: nothing is queued once the stream has ended or failed. -/
  drained : s.st ≠ .ready → s.outQ = []
  /-- R131: inside the engine, between calls. -/
  bits    : s.bitCnt.toNat ≤ 15
  /-- R23, R241. -/
  closed  : s.st = .uninit → s.AtPowerOn

/-! ### What a resolved code changes (R149 to R152) -/

/-- The elements of R20 that no LIT, DICT, KWKWK or CLEAR writes, and the agents' fields. -/
structure KeepsRest (s t : State) : Prop where
  st      : t.st = s.st
  err     : t.err = s.err
  errInfo : t.errInfo = s.errInfo
  bitBuf  : t.bitBuf = s.bitBuf
  bitCnt  : t.bitCnt = s.bitCnt
  src     : t.src = s.src
  inbox   : t.inbox = s.inbox
  outbox  : t.outbox = s.outbox

/-- `t` is `s` after a code resolved to `seq`: the insertion from the old PREV, the width rule, PREV, emission, and
nothing else. -/
structure Resolved (s t : State) (seq : ByteSeq) : Prop where
  /-- R151. -/
  prev  : t.prev = seq
  /-- R152. -/
  outQ  : t.outQ = s.outQ ++ seq
  /-- R149: no insertion, and so no width change, with PREV empty or the dictionary full. -/
  kept  : s.prev = [] ∨ s.nextCode.toNat = 65536 →
    t.nextCode = s.nextCode ∧ t.codeSize = s.codeSize ∧ ∀ c, t.dict.read c = s.dict.read c
  /-- R149 and R150 otherwise. -/
  grown : s.prev ≠ [] → s.nextCode.toNat < 65536 →
    t.nextCode.toNat = s.nextCode.toNat + 1
      ∧ t.dict.read s.nextCode.toNat = some (s.prev ++ seq.take 1)
      ∧ (∀ c, c ≠ s.nextCode.toNat → t.dict.read c = s.dict.read c)
      ∧ t.codeSize.toNat =
          if s.nextCode.toNat + 1 = 2 ^ s.codeSize.toNat ∧ s.codeSize.toNat < 16 then s.codeSize.toNat + 1
          else s.codeSize.toNat
  rest  : KeepsRest s t

/-! ### Runs -/

/-- Several instructions, one after another, stopping at the first that gives no next state. -/
def runAll : List Instr → State → Host.Outcome State Fault Refusal
  | [], s => .next s
  | i :: is, s =>
    match exec i s with
    | .next s' => runAll is s'
    | .fault r => .fault r
    | .refused r => .refused r

/-- The decode steps of `READ k` without a bound on their number (R185): `t` is reached from `s` by decode steps, each
taken with fewer than `k` bytes queued and the stream open, and at `t` one of the two no longer holds. -/
inductive ReadRun (k : Nat) : State → State → Prop where
  | stop (s : State) (h : ¬ (s.outQ.length < k ∧ s.st = .ready)) : ReadRun k s s
  | more (s u t : State) (hk : s.outQ.length < k) (hr : s.st = .ready) (ha : advance s = .next u)
      (rest : ReadRun k u t) : ReadRun k s t

/-- The data part of the last answer given. -/
def State.lastData (s : State) : ByteSeq :=
  match s.outbox.getLast? with
  | some (.host _ data _) => data
  | some (.bits _) => []
  | some (.source _) => []
  | none => []

/-- The result code of the last answer given to the host. -/
def State.lastRc (s : State) : Option (BitVec 4) :=
  match s.outbox.getLast? with
  | some (.host w _ _) => some (respRc w)
  | some (.bits _) => none
  | some (.source _) => none
  | none => none

/-- The data parts of all answers, concatenated: the output of a run (R195). -/
def State.delivered (s : State) : ByteSeq :=
  s.outbox.flatMap (fun r => match r with | .host _ data _ => data | .bits _ => [] | .source _ => [])

/-- READs of the given sizes until one answers with COUNT < K (R191, R195): the state after that answer, if it
comes. -/
def readUntilShort : List (BitVec 24) → State → Option State
  | [], _ => none
  | k :: ks, s =>
    match exec (.read k) s with
    | .next t => if t.lastData.length < k.toNat then some t else readUntilShort ks t
    | .fault _ => none
    | .refused _ => none

/-- The elements of R20 are the same in both states. -/
structure SameEngine (s t : State) : Prop where
  st       : t.st = s.st
  err      : t.err = s.err
  errInfo  : t.errInfo = s.errInfo
  codeSize : t.codeSize = s.codeSize
  nextCode : t.nextCode = s.nextCode
  dict     : t.dict = s.dict
  prev     : t.prev = s.prev
  bitBuf   : t.bitBuf = s.bitBuf
  bitCnt   : t.bitCnt = s.bitCnt
  outQ     : t.outQ = s.outQ

end Sys2Proof.Machine
end

