-- ==== Sys2Proof/Certificates/Slice0/Obligations.lean ====
section
/-! DEFINITION. The statements for the provers, from the numbered rules of spec/. -/

open Sys2Proof Sys2Proof.Machine

/-! ### Reset (70_reset_and_hazards.md) -/

/-- R241: at power-on and at RELEASE every element of R20 has its power-on value. -/
def Obligations.PowerOnAndReleaseValues : Prop :=
  State.reset.AtPowerOn ∧ ∀ s : State, ∃ t, exec .release s = .next t ∧ t.AtPowerOn

/-- R242, as noninterference: what INIT leaves, and what it answers, depends on the byte source and the agents' fields
alone, not on the engine's state before. -/
def Obligations.InitForgetsTheEngine : Prop :=
  ∀ s s' : State, s.src.bytes = s'.src.bytes → s.src.term = s'.src.term → s.inbox = s'.inbox → s.outbox = s'.outbox →
    (∀ t t', exec .initRaw s = .next t → exec .initRaw s' = .next t' → t = t')
      ∧ (∀ t, exec .initHdr s = .next t → exec .initHdr s' = .next t)

/-- R243: the CLEAR code applies `reset_dict()` alone. -/
def Obligations.ClearResetsTheDictionaryAlone : Prop :=
  ∀ s : State, s.st = .ready → ∃ t, exec .clear s = .next t
    ∧ t.codeSize.toNat = 9 ∧ t.nextCode.toNat = 257 ∧ t.prev = []
    ∧ (∀ b : Byte, t.dict.read b.toNat = some [b]) ∧ t.dict.read 256 = some []
    ∧ (∀ c, 257 ≤ c → t.dict.read c = none)
    ∧ t.outQ = s.outQ ∧ KeepsRest s t

/-- R157: after a CLEAR step every element that `reset_dict()` writes equals its value after INIT. -/
def Obligations.ClearLeavesWhatInitLeaves : Prop :=
  ∀ s s' t t' : State, exec .clear s = .next t → exec .initRaw s' = .next t' →
    t.codeSize = t'.codeSize ∧ t.nextCode = t'.nextCode ∧ t.prev = t'.prev ∧ t.dict = t'.dict

/-! ### Encodings (30_encoding.md) -/

/-- A few words written out from R96, R97, R98, R101 and R103, each decoding to the instruction it stands for. -/
def Obligations.WordsOfTheEncodingTablesDecode : Prop :=
  decodeTableWord 32 0x10000000 = some .initRaw ∧ decodeTableWord 32 0x10000001 = some .initHdr
    ∧ decodeTableWord 32 0x20000005 = some (.read 5#24) ∧ decodeTableWord 32 0x30000000 = some .release
    ∧ decodeTableWord 32 0x40000000 = some .status ∧ decodeTableWord 32 0x20000000 = some (.illegalCmd 0x20000000#32)
    ∧ decodeTableWord 16 0x0100 = some .clear ∧ decodeTableWord 16 0x0061 = some (.lit 0x61#8)
    ∧ decodeTableWord 8 0x40 = some (.brGet 64#7) ∧ decodeTableWord 8 0x41 = some (.brGetRefused 65#7)
    ∧ decodeTableWord 0 0 = some .srcPull
    ∧ decode ⟨300#17, false⟩ (.code 299#16) = .dict 299#16 ∧ decode ⟨300#17, false⟩ (.code 300#16) = .kwkwk 300#16
    ∧ decode ⟨300#17, true⟩ (.code 300#16) = .illegalCode 300#16

/-- Decode and encode agree: for every instruction that stands for a word of the table in the state at hand, decoding
its word gives it back, with every operand. -/
def Obligations.DecodeOfEncodeIsTheInstruction : Prop :=
  ∀ (ctx : DecodeCtx) (i : Instr), i.wf = true → i.legalIn ctx = true → decode ctx (encode i) = i

/-- Every word of every format is the word of the instruction it decodes to, and that instruction meets its row's
condition. NEXT_CODE has a legal value (R26). -/
def Obligations.EncodeOfDecodeIsTheWord : Prop :=
  ∀ (ctx : DecodeCtx) (w : RawWord), 257 ≤ ctx.nextCode.toNat →
    encode (decode ctx w) = w ∧ (decode ctx w).wf = true ∧ (decode ctx w).legalIn ctx = true

/-- R104: the classification of a command word by match and mask. -/
def Obligations.CommandWordClassification : Prop :=
  ∀ w : BitVec 32,
    (w &&& 0xFFFFFFFF#32 = 0x10000000#32 → decodeCmd w = .initRaw)
      ∧ (w &&& 0xFFFFFFFF#32 = 0x10000001#32 → decodeCmd w = .initHdr)
      ∧ (w &&& 0xFF000000#32 = 0x20000000#32 → (w &&& 0x00FFFFFF#32) ≠ 0#32 →
          decodeCmd w = .read (BitVec.ofNat 24 (w.toNat % 2 ^ 24)))
      ∧ (w &&& 0xFFFFFFFF#32 = 0x30000000#32 → decodeCmd w = .release)
      ∧ (w &&& 0xFFFFFFFF#32 = 0x40000000#32 → decodeCmd w = .status)
      ∧ (w ≠ 0x10000000#32 → w ≠ 0x10000001#32
          → ¬ (w &&& 0xFF000000#32 = 0x20000000#32 ∧ (w &&& 0x00FFFFFF#32) ≠ 0#32)
          → w ≠ 0x30000000#32 → w ≠ 0x40000000#32 → decodeCmd w = .illegalCmd w)

/-- R103: the classification of a code; NEXT_CODE has a legal value (R26), so the five conditions exclude each
other and cover every code. -/
def Obligations.CodeClassification : Prop :=
  ∀ (nc : BitVec 17) (pe : Bool) (code : BitVec 16), 257 ≤ nc.toNat →
    (code.toNat = 256 → decodeCode ⟨nc, pe⟩ code = .clear)
      ∧ (code.toNat ≤ 255 → decodeCode ⟨nc, pe⟩ code = .lit (BitVec.ofNat 8 code.toNat))
      ∧ (257 ≤ code.toNat → code.toNat < nc.toNat → decodeCode ⟨nc, pe⟩ code = .dict code)
      ∧ (code.toNat = nc.toNat → pe = false → decodeCode ⟨nc, pe⟩ code = .kwkwk code)
      ∧ (nc.toNat < code.toNat ∨ (code.toNat = nc.toNat ∧ pe = true) → decodeCode ⟨nc, pe⟩ code = .illegalCode code)

/-- R108: the `j`-th code of an epoch is read at width `min(16, bitlen(min(65536, 257 + max(0, j - 1))))`: after any
`j` codes that resolved, started from a dictionary reset, CODESIZE is that width. -/
def Obligations.WidthOfTheNthCodeOfAnEpoch : Prop :=
  ∀ (is : List Instr) (s t : State), s.codeSize.toNat = 9 → s.nextCode.toNat = 257 → s.prev = [] →
    (∀ i ∈ is, i.resolves = true) → runAll is s = .next t →
      t.nextCode.toNat = min 65536 (257 + (is.length - 1))
        ∧ t.codeSize.toNat = min 16 (Nat.log2 (min 65536 (257 + (is.length - 1))) + 1)

/-! ### The step -/

/-- A step runs the decoded instruction: the request at the front of the inbox leaves it, and `exec` of its instruction
runs in the state that remains; for a command, with the source handed over if it is an INIT (R194); for a decode step,
with the code's bits consumed at width CODESIZE (R142). With nothing requested the state stays. -/
def Obligations.StepRunsTheDecodedInstruction : Prop :=
  ∀ (s : State) (rest : List Request),
    (∀ w hand, s.inbox = .cmd w hand :: rest →
        (decodeCmd w = .initRaw ∨ decodeCmd w = .initHdr →
          step s = exec (decodeCmd w) { s with inbox := rest, src := hand.getD s.src })
        ∧ (decodeCmd w ≠ .initRaw → decodeCmd w ≠ .initHdr →
          step s = exec (decodeCmd w) { s with inbox := rest }))
      ∧ (∀ v t, s.inbox = .decodeStep :: rest → s.st = .ready →
          { s with inbox := rest }.brGet s.codeSize.toNat = some (.value v, t) →
            step s = exec (decodeCode ⟨t.nextCode, t.prev.isEmpty⟩ (v.setWidth 16)) t)
      ∧ (∀ n, s.inbox = .brReq n :: rest → step s = exec (decodeBrReq n) { s with inbox := rest })
      ∧ (s.inbox = .srcPull :: rest → step s = exec .srcPull { s with inbox := rest })
      ∧ (s.inbox = [] → step s = .next s)

/-- R142 and R214: a decode step whose code fetch gives no code: no data ends the stream with no other change but the
bits pulled; a source error raises an I/O error; R223: a source that never answers leaves no step; and outside READY
no decode step runs (R141). -/
def Obligations.DecodeStepWithoutACode : Prop :=
  ∀ (s : State) (rest : List Request), s.inbox = .decodeStep :: rest →
    (∀ t, s.st = .ready → { s with inbox := rest }.brGet s.codeSize.toNat = some (.noData, t) →
        step s = .next { t with st := .eos })
      ∧ (∀ e t, s.st = .ready → { s with inbox := rest }.brGet s.codeSize.toNat = some (.ioErr e, t) →
        step s = .next { t with st := .fault, err := .io, errInfo := e })
      ∧ (s.st = .ready → { s with inbox := rest }.brGet s.codeSize.toNat = none → step s = .fault .sourceSilent)
      ∧ (s.st ≠ .ready → step s = .refused .notReady)

/-- Every step keeps the machine's invariant, whoever sent the request. -/
def Obligations.EveryStepKeepsTheInvariant : Prop :=
  ∀ s t : State, s.Inv → step s = .next t → t.Inv

/-- R192 with R131, R186 and R187: every step of a machine to which the host alone sends requests keeps the invariant
of the state between host commands: OUTQ is empty or a proper suffix of PREV, nothing is queued once the stream has
ended or failed, at most 15 bits are buffered. -/
def Obligations.HostStepsKeepTheHostInvariant : Prop :=
  ∀ s t : State, s.HostInv → step s = .next t → t.HostInv

/-- Both invariants hold at reset. -/
def Obligations.ResetMeetsTheInvariants : Prop := State.reset.Inv ∧ State.reset.HostInv

/-- R153 item 3: every sequence of an entry but the placeholder is non-empty, a dynamic entry `c` has length 2 to
`c - 255`, PREV has at most 65280 bytes; and every prefix of length at least 1 of an entry is an entry (item 2). -/
def Obligations.SequenceLengths : Prop :=
  ∀ s : State, s.Inv →
    (∀ c seq, 257 ≤ c → s.dict.read c = some seq → 2 ≤ seq.length ∧ seq.length ≤ c - 255 ∧ seq.length ≤ 65280)
      ∧ s.prev.length ≤ 65280
      ∧ ∀ c seq n, 257 ≤ c → s.dict.read c = some seq → 1 ≤ n → n ≤ seq.length →
          ∃ p, p < s.nextCode.toNat ∧ s.dict.read p = some (seq.take n)

/-- R23: what changes the phase. UNINIT is entered by RELEASE alone; READY by INIT alone; EOS by a READ from READY
alone; FAULT by INIT HDR, a READ from READY or an illegal code alone. -/
def Obligations.PhaseChanges : Prop :=
  ∀ (i : Instr) (s t : State), exec i s = .next t → t.st ≠ s.st →
    (t.st = .uninit → i = .release)
      ∧ (t.st = .ready → i = .initRaw ∨ i = .initHdr)
      ∧ (t.st = .eos → s.st = .ready ∧ ∃ k, i = .read k)
      ∧ (t.st = .fault → i = .initHdr ∨ (s.st = .ready ∧ ((∃ k, i = .read k) ∨ ∃ c, i = .illegalCode c)))

/-! ### The code classes (41_decoder_codes.md) -/

/-- R144: a literal completes in every READY state, at every width and with a full dictionary too, and resolves to its
one byte. -/
def Obligations.LiteralResolvesToItsByte : Prop :=
  ∀ (b : Byte) (s : State), s.st = .ready → 257 ≤ s.nextCode.toNat → s.nextCode.toNat ≤ 65536 →
    ∃ t, exec (.lit b) s = .next t ∧ Resolved s t [b]

/-- R146: a code naming a dynamic entry completes and resolves to the entry's sequence. -/
def Obligations.DictionaryCodeResolvesToItsEntry : Prop :=
  ∀ (code : BitVec 16) (seq : ByteSeq) (s : State), s.st = .ready → s.nextCode.toNat ≤ 65536 →
    257 ≤ code.toNat → code.toNat < s.nextCode.toNat → s.dict.read code.toNat = some seq → seq ≠ [] →
      ∃ t, exec (.dict code) s = .next t ∧ Resolved s t seq

/-- R146: "A code in this range always names an entry": under the invariant a DICT code always completes. -/
def Obligations.DictionaryCodeAlwaysNamesAnEntry : Prop :=
  ∀ (code : BitVec 16) (s : State), s.Inv → s.st = .ready → 257 ≤ code.toNat → code.toNat < s.nextCode.toNat →
    ∃ seq t, s.dict.read code.toNat = some seq ∧ exec (.dict code) s = .next t ∧ Resolved s t seq

/-- R147: the KwKwK code completes, resolves to PREV with its own first byte appended, and the entry at index `code`
receives exactly that sequence. -/
def Obligations.KwkwkResolvesFromPrev : Prop :=
  ∀ (code : BitVec 16) (s : State) (x : Byte) (xs : ByteSeq), s.st = .ready → 257 ≤ code.toNat →
    code.toNat = s.nextCode.toNat → s.prev = x :: xs →
      ∃ t, exec (.kwkwk code) s = .next t ∧ Resolved s t (s.prev ++ [x])
        ∧ t.dict.read code.toNat = some (s.prev ++ [x])

/-- R212, R216: an illegal code raises a data error that records the code, and writes nothing else. -/
def Obligations.IllegalCodeRaisesDataError : Prop :=
  ∀ (code : BitVec 16) (s : State), s.st = .ready → 257 ≤ code.toNat →
    (s.nextCode.toNat < code.toNat ∨ (code.toNat = s.nextCode.toNat ∧ s.prev = [])) →
      exec (.illegalCode code) s =
        .next { s with st := .fault, err := .data, errInfo := BitVec.ofNat 24 code.toNat }

/-- A code instruction outside READY, or of a class whose condition does not hold, is refused by name: the model's own
convention for terms the decoder never hands out (R141's precondition, log entry 8). -/
def Obligations.CodeOutOfPlaceIsRefused : Prop :=
  ∀ (i : Instr) (s : State), i.isCode = true →
    (s.st ≠ .ready → exec i s = .refused .notReady)
      ∧ (s.st = .ready → i.wf = true → i.legalIn ⟨s.nextCode, s.prev.isEmpty⟩ = false →
          exec i s = .refused .classMismatch)

/-- R249: the first code of every epoch is a literal or another CLEAR: with PREV empty, every other code faults, and
the first code inserts nothing. -/
def Obligations.FirstCodeOfAnEpoch : Prop :=
  ∀ (s : State) (code : BitVec 16), s.st = .ready → s.nextCode.toNat = 257 → s.prev = [] →
    ∃ t, exec (decodeCode ⟨s.nextCode, s.prev.isEmpty⟩ code) s = .next t
      ∧ t.nextCode.toNat = 257 ∧ (∀ c, 257 ≤ c → s.dict.read c = none → t.dict.read c = none)
      ∧ (t.st = .fault ↔ 257 ≤ code.toNat)

/-- R250 and R156: with the dictionary full, every code is a literal, CLEAR or an entry, and no code but CLEAR
changes the dictionary, NEXT_CODE or the width. -/
def Obligations.FullDictionaryIsFrozen : Prop :=
  ∀ (s t : State) (code : BitVec 16), s.nextCode.toNat = 65536 →
    (∀ c, decodeCode ⟨s.nextCode, s.prev.isEmpty⟩ code ≠ .kwkwk c
        ∧ decodeCode ⟨s.nextCode, s.prev.isEmpty⟩ code ≠ .illegalCode c)
      ∧ (code.toNat ≠ 256 → exec (decodeCode ⟨s.nextCode, s.prev.isEmpty⟩ code) s = .next t →
          t.dict = s.dict ∧ t.nextCode = s.nextCode ∧ t.codeSize = s.codeSize)

/-- R154: NEXT_CODE changes only by +1 or by reset to 257, CODESIZE only by +1 while below 16 or by reset to 9, over
all five code classes. -/
def Obligations.CountersMoveByOneOrReset : Prop :=
  ∀ (i : Instr) (s t : State), i.isCode = true → s.nextCode.toNat ≤ 65536 → exec i s = .next t →
    (t.nextCode.toNat = s.nextCode.toNat ∨ t.nextCode.toNat = s.nextCode.toNat + 1 ∨ t.nextCode.toNat = 257)
      ∧ t.nextCode.toNat ≤ 65536
      ∧ (t.codeSize.toNat = s.codeSize.toNat ∨ (t.codeSize.toNat = s.codeSize.toNat + 1 ∧ s.codeSize.toNat < 16)
        ∨ t.codeSize.toNat = 9)

/-! ### The bit reader and the byte source (40_bit_reader.md, 20_memory.md) -/

/-- R121 to R123 and R125: `get(n)` with enough bits left returns the `n` oldest bits of the stream, earliest bit
least significant, leaves the bits after them in order, pulls exactly `max(0, ceil((n - BITCNT) / 8))` bytes, and
changes nothing else. BITBUF is canonical (R29). -/
def Obligations.BitReaderReturnsTheOldestBits : Prop :=
  ∀ (n : BitVec 7) (s : State), n.toNat ≤ 64 → s.bitBuf.toNat < 2 ^ s.bitCnt.toNat →
    n.toNat ≤ s.bitCnt.toNat + 8 * s.src.bytes.length →
      ∃ t v, exec (.brGet n) s = .next t ∧ t.outbox = s.outbox ++ [.bits (.value v)]
        ∧ v.toNat = valueOfBits ((s.bitQ ++ streamBits s.src.bytes).take n.toNat)
        ∧ t.bitQ ++ streamBits t.src.bytes = (s.bitQ ++ streamBits s.src.bytes).drop n.toNat
        ∧ t.bitBuf.toNat < 2 ^ t.bitCnt.toNat
        ∧ t.src.pulls = s.src.pulls + (n.toNat - s.bitCnt.toNat + 7) / 8
        ∧ t.src.bytes = s.src.bytes.drop ((n.toNat - s.bitCnt.toNat + 7) / 8)
        ∧ t.src.term = s.src.term
        ∧ t.st = s.st ∧ t.err = s.err ∧ t.errInfo = s.errInfo ∧ t.codeSize = s.codeSize ∧ t.nextCode = s.nextCode
        ∧ t.dict = s.dict ∧ t.prev = s.prev ∧ t.outQ = s.outQ ∧ t.inbox = s.inbox

/-- R124 and R128: `get(n)` with too few bits left consumes no bit: every byte pulled stays in BITQ, and the result is
NODATA when the source ended, `IOERR(e)` with `e` unchanged when it failed. -/
def Obligations.BitReaderWithTooFewBits : Prop :=
  ∀ (n : BitVec 7) (s : State), n.toNat ≤ 64 → s.bitBuf.toNat < 2 ^ s.bitCnt.toNat →
    s.bitCnt.toNat + 8 * s.src.bytes.length < n.toNat →
      ∀ r, (s.src.term = .eof ∧ r = .noData) ∨ (∃ e, s.src.term = .err e ∧ r = .ioErr e) →
        ∃ t, exec (.brGet n) s = .next t ∧ t.outbox = s.outbox ++ [.bits r]
          ∧ t.bitQ = s.bitQ ++ streamBits s.src.bytes ∧ t.bitBuf.toNat < 2 ^ t.bitCnt.toNat
          ∧ t.src.bytes = [] ∧ t.src.term = s.src.term ∧ t.src.pulls = s.src.pulls + s.src.bytes.length + 1
          ∧ t.st = s.st ∧ t.err = s.err ∧ t.errInfo = s.errInfo ∧ t.codeSize = s.codeSize
          ∧ t.nextCode = s.nextCode ∧ t.dict = s.dict ∧ t.prev = s.prev ∧ t.outQ = s.outQ ∧ t.inbox = s.inbox

/-- R126: `get(0)` returns `VALUE(0)`, pulls nothing and changes nothing. -/
def Obligations.ZeroWidthGetChangesNothing : Prop :=
  ∀ s : State, exec (.brGet 0#7) s = .next { s with outbox := s.outbox ++ [.bits (.value 0#64)] }

/-- R127: `get(n)` with `n > 64` is refused as BR_WIDTH, whichever row the width came by; and inside the engine it
cannot occur, because CODESIZE is 9 to 16. -/
def Obligations.WideGetIsRefused : Prop :=
  (∀ (n : BitVec 7) (s : State), 64 < n.toNat →
    decodeBrReq n = .brGetRefused n ∧ exec (.brGetRefused n) s = .refused .brWidth
      ∧ exec (.brGet n) s = .refused .brWidth)
    ∧ ∀ s : State, s.Inv → 9 ≤ s.codeSize.toNat ∧ s.codeSize.toNat ≤ 16

/-- R131: BITCNT stays at most 71; a successful call that pulled leaves at most 7 bits, an unsuccessful one fewer
than `n`. -/
def Obligations.BitCountBound : Prop :=
  ∀ (n : BitVec 7) (s t : State), n.toNat ≤ 64 → s.bitCnt.toNat ≤ 71 → exec (.brGet n) s = .next t →
    t.bitCnt.toNat ≤ 71
      ∧ (∀ v, t.outbox = s.outbox ++ [.bits (.value v)] → t.bitCnt.toNat ≤ 7 ∨ t.src = s.src)
      ∧ (∀ r, (∀ v, r ≠ .value v) → t.outbox = s.outbox ++ [.bits r] → t.bitCnt.toNat < n.toNat)

/-- R130: from an empty BITQ and a source of `L` bytes that then ends, repeated `get(n)` returns VALUE exactly
`floor(8L / n)` times, the values are the stream's first bits in order, and the next call returns NODATA. -/
def Obligations.RepeatedGetReconstructsTheStream : Prop :=
  ∀ (n : BitVec 7) (s : State), 1 ≤ n.toNat → n.toNat ≤ 64 → s.bitCnt = 0#7 → s.bitBuf = 0#72 → s.src.term = .eof →
    ∃ (t u : State) (vals : List (BitVec 64)),
      vals.length = 8 * s.src.bytes.length / n.toNat
        ∧ runAll (List.replicate vals.length (.brGet n)) s = .next t
        ∧ t.outbox = s.outbox ++ vals.map (fun v => .bits (.value v))
        ∧ vals.flatMap (fun v => bitsOf v.toNat n.toNat) = (streamBits s.src.bytes).take (n.toNat * vals.length)
        ∧ exec (.brGet n) t = .next u ∧ u.outbox = t.outbox ++ [.bits .noData]
        ∧ u.bitCnt.toNat = 8 * s.src.bytes.length - n.toNat * vals.length

/-- R63 and R94: a code packed into bytes at any width up to 64, with anything after it, is read back by `get` at that
width, and the bits after it are what is left, but for the padding of the final byte. -/
def Obligations.PackedCodeIsReadBack : Prop :=
  ∀ (n : BitVec 7) (v : Nat) (after : List Bool) (s : State), n.toNat ≤ 64 → v < 2 ^ n.toNat →
    s.bitCnt = 0#7 → s.bitBuf = 0#72 → s.src.bytes = packBits (bitsOf v n.toNat ++ after) →
      ∃ t pad, exec (.brGet n) s = .next t ∧ t.outbox = s.outbox ++ [.bits (.value (BitVec.ofNat 64 v))]
        ∧ pad ≤ 7 ∧ t.bitQ ++ streamBits t.src.bytes = after ++ List.replicate pad false

/-- R110 and R108: the text's packing and the engine's fetch agree: with the stream ahead being the packed codes of an
epoch from its `j`-th on, at the widths of R108, the decode step executes exactly the first of them and leaves the
stream of the rest, a CLEAR starting the next epoch's widths (R247). -/
def Obligations.AssembledCodeIsFetched : Prop :=
  ∀ (j : Nat) (c : BitVec 16) (rest : List (BitVec 16)) (pad : List Bool) (s : State), s.st = .ready →
    s.bitBuf.toNat < 2 ^ s.bitCnt.toNat → s.codeSize.toNat = epochWidth j → c.toNat < 2 ^ epochWidth j →
    s.bitQ ++ streamBits s.src.bytes = codeStreamBits j (c :: rest) ++ pad →
      ∃ t, advance s = exec (decodeCode s.ctx c) t ∧ t.ctx = s.ctx
        ∧ t.bitQ ++ streamBits t.src.bytes = codeStreamBits (if c.toNat = 256 then 0 else j + 1) rest ++ pad

/-- R22: a fetched code moves the stream cursor by the CODESIZE it was read at, whatever the code is. -/
def Obligations.CodeFetchMovesTheCursor : Prop :=
  ∀ (hdr : Bool) (s t : State) (v : BitVec 64), s.brGet s.codeSize.toNat = some (.value v, t) →
    t.cursor hdr = s.cursor hdr + s.codeSize.toNat

/-- R62, with R61 and R66: one request, one answer: the next byte, which is consumed, or the terminator, on this and
every later request; nothing in the engine changes. -/
def Obligations.SourcePullAnswersOnce : Prop :=
  ∀ s : State,
    (∀ b rest, s.src.bytes = b :: rest →
        exec .srcPull s = .next { s with
          src := ⟨rest, s.src.term, s.src.pulls + 1, s.src.taken + 1⟩, outbox := s.outbox ++ [.source (.byte b)] })
      ∧ (∀ r, (s.src.term = .eof ∧ r = .eof) ∨ (∃ e, s.src.term = .err e ∧ r = .err e) → s.src.bytes = [] →
        exec .srcPull s = .next { s with
          src := ⟨[], s.src.term, s.src.pulls + 1, s.src.taken⟩, outbox := s.outbox ++ [.source r] })

/-- R223: a pull that the source never answers leaves no step: no next state, from whichever instruction it comes. The
model names this stop `sourceSilent` (log entry 1). -/
def Obligations.SilentSourceLeavesNoStep : Prop :=
  ∀ s : State, s.src.term = .silent →
    (s.src.bytes = [] → exec .srcPull s = .fault .sourceSilent)
      ∧ (∀ n : BitVec 7, n.toNat ≤ 64 → s.bitCnt.toNat + 8 * s.src.bytes.length < n.toNat →
          exec (.brGet n) s = .fault .sourceSilent)
      ∧ (s.src.bytes.length < 3 → exec .initHdr s = .fault .sourceSilent)
      ∧ (∀ k : BitVec 24, s.st = .ready → s.outQ.length < k.toNat →
          s.bitCnt.toNat + 8 * s.src.bytes.length < s.codeSize.toNat → exec (.read k) s = .fault .sourceSilent)

/-! ### The host commands (42_host_commands.md) -/

/-- R182: INIT RAW opens a stream in every phase, pulls no byte and answers OK, COUNT 0. -/
def Obligations.InitRawOpensAStream : Prop :=
  ∀ s : State, ∃ t, exec .initRaw s = .next t
    ∧ t.st = .ready ∧ t.err = .none ∧ t.errInfo = 0#24 ∧ t.codeSize.toNat = 9 ∧ t.nextCode.toNat = 257
    ∧ (∀ b : Byte, t.dict.read b.toNat = some [b]) ∧ t.dict.read 256 = some []
    ∧ (∀ c, 257 ≤ c → t.dict.read c = none)
    ∧ t.prev = [] ∧ t.bitBuf = 0#72 ∧ t.bitCnt = 0#7 ∧ t.outQ = []
    ∧ t.src.bytes = s.src.bytes ∧ t.src.term = s.src.term ∧ t.src.pulls = 0
    ∧ t.inbox = s.inbox ∧ t.outbox = s.outbox ++ [.host 0x00000000#32 [] []]

/-- R183: INIT HDR by what the source delivers: the magic header opens the stream over the remaining bytes; three other
bytes are a format error with record 3; a source that ends after fewer is a format error with their count; one that
fails first is an I/O error with its code. Whichever it is, BITQ and OUTQ are emptied and `reset_dict()` has run. -/
def Obligations.InitHdrChecksTheHeader : Prop :=
  ∀ s : State,
    (∀ rest, s.src.bytes = 0x1F#8 :: 0x9D#8 :: 0x90#8 :: rest → ∃ t, exec .initHdr s = .next t
        ∧ t.st = .ready ∧ t.err = .none ∧ t.errInfo = 0#24 ∧ t.src = ⟨rest, s.src.term, 3, 3⟩
        ∧ t.outbox = s.outbox ++ [.host 0x00000000#32 [] []])
      ∧ (∀ a b c rest, s.src.bytes = a :: b :: c :: rest → [a, b, c] ≠ [0x1F#8, 0x9D#8, 0x90#8] →
        ∃ t, exec .initHdr s = .next t
          ∧ t.st = .fault ∧ t.err = .format ∧ t.errInfo = 3#24 ∧ t.src = ⟨rest, s.src.term, 3, 3⟩
          ∧ t.outbox = s.outbox ++ [.host 0x00000001#32 [] []])
      ∧ (s.src.bytes.length < 3 → s.src.term = .eof → ∃ t, exec .initHdr s = .next t
          ∧ t.st = .fault ∧ t.err = .format ∧ t.errInfo.toNat = s.src.bytes.length
          ∧ t.src = ⟨[], .eof, s.src.bytes.length + 1, s.src.bytes.length⟩
          ∧ t.outbox = s.outbox ++ [.host 0x00000001#32 [] []])
      ∧ (∀ e, s.src.bytes.length < 3 → s.src.term = .err e → ∃ t, exec .initHdr s = .next t
          ∧ t.st = .fault ∧ t.err = .io ∧ t.errInfo = e
          ∧ t.src = ⟨[], .err e, s.src.bytes.length + 1, s.src.bytes.length⟩
          ∧ t.outbox = s.outbox ++ [.host 0x00000003#32 [] []])
      ∧ ∀ t, exec .initHdr s = .next t →
          t.codeSize.toNat = 9 ∧ t.nextCode.toNat = 257
            ∧ (∀ b : Byte, t.dict.read b.toNat = some [b]) ∧ t.dict.read 256 = some []
            ∧ (∀ c, 257 ≤ c → t.dict.read c = none) ∧ t.prev = []
            ∧ t.bitBuf = 0#72 ∧ t.bitCnt = 0#7 ∧ t.outQ = [] ∧ t.inbox = s.inbox

/-- R214: an error code of any legal width `IO_CODE_BITS` (1 to 24) reaches ERRINFO unchanged, zero-extended. -/
def Obligations.IoErrorCodeIsUnchanged : Prop :=
  ∀ (bits : Nat) (e : BitVec bits) (s t : State), 1 ≤ bits → bits ≤ 24 → s.src.term = .err (e.setWidth 24) →
    (exec .initHdr s = .next t ∨ ∃ k, s.st ≠ .fault ∧ exec (.read k) s = .next t) → t.st = .fault → t.err = .io →
      t.errInfo.toNat = e.toNat

/-- R184: READ in UNINIT answers NOT_OPEN and READ in FAULT the recorded error's code, COUNT 0, with no state change
and no byte pulled. -/
def Obligations.ReadBeforeInitOrAfterFault : Prop :=
  ∀ (k : BitVec 24) (s : State),
    (s.st = .uninit → exec (.read k) s = .next { s with outbox := s.outbox ++ [.host 0x00000005#32 [] []] })
      ∧ (s.st = .fault → s.err = .format →
          exec (.read k) s = .next { s with outbox := s.outbox ++ [.host 0x00000001#32 [] []] })
      ∧ (s.st = .fault → s.err = .data →
          exec (.read k) s = .next { s with outbox := s.outbox ++ [.host 0x00000002#32 [] []] })
      ∧ (s.st = .fault → s.err = .io →
          exec (.read k) s = .next { s with outbox := s.outbox ++ [.host 0x00000003#32 [] []] })

/-- R187: a READ in EOS runs no decode step and answers OK, COUNT 0. -/
def Obligations.ReadAfterEndOfStream : Prop :=
  ∀ (k : BitVec 24) (s : State), s.HostInv → s.st = .eos →
    s.outQ = [] ∧ exec (.read k) s = .next { s with outbox := s.outbox ++ [.host 0x00000000#32 [] []] }

/-- R185 and R186: READ in READY or EOS is exactly: decode steps while fewer than `k` bytes are queued and the stream
is open, however many that takes; then the first `min(len(OUTQ), k)` bytes are delivered with COUNT their number, RC
the error's if a decode step raised one, and nothing else changes. -/
def Obligations.ReadIsDecodeStepsThenDelivery : Prop :=
  ∀ (k : BitVec 24) (s t : State), s.st = .ready ∨ s.st = .eos →
    (exec (.read k) s = .next t ↔
      ∃ u, ReadRun k.toNat s u
        ∧ t = { u with
            outQ := u.outQ.drop k.toNat
            outbox := u.outbox ++
              [.host (resp32 (if u.st = .fault then u.err.rc else 0#4) (BitVec.ofNat 24 (min u.outQ.length k.toNat)))
                (u.outQ.take k.toNat) []] })

/-- R185: in READY or EOS a READ completes with one answer, whose COUNT is the length of its data part and at most
`k`, for every source that answers its pulls; and with enough bytes queued for any source at all. The answer's word in
numbers (R99, R100): [31:28] is 0, [27:4] the number of data bytes, [3:0] is 0 without an error, 2 with a data error, 3
with an I/O error. -/
def Obligations.ReadCompletes : Prop :=
  ∀ (k : BitVec 24) (s : State), s.Inv → s.st = .ready ∨ s.st = .eos →
    s.src.term ≠ .silent ∨ k.toNat ≤ s.outQ.length ∨ s.st = .eos →
      ∃ t w data, exec (.read k) s = .next t ∧ t.outbox = s.outbox ++ [.host w data []] ∧ t.inbox = s.inbox
        ∧ (respCount w).toNat = data.length ∧ data.length ≤ k.toNat ∧ t.src.term = s.src.term
        ∧ t.src.bytes <:+ s.src.bytes
        ∧ w.extractLsb' 28 4 = 0#4 ∧ (w.extractLsb' 4 24).toNat = data.length
        ∧ (t.st ≠ .fault → w.extractLsb' 0 4 = 0#4)
        ∧ (t.st = .fault → (t.err = .data ∧ w.extractLsb' 0 4 = 2#4) ∨ (t.err = .io ∧ w.extractLsb' 0 4 = 3#4))

/-- R223: under the invariant a READ stops only at a pull that the source never answers. -/
def Obligations.ReadStopsOnlyOnASilentSource : Prop :=
  ∀ (k : BitVec 24) (s : State), s.Inv →
    (∃ t, exec (.read k) s = .next t) ∨ (exec (.read k) s = .fault .sourceSilent ∧ s.src.term = .silent)

/-- R193: a READ from READY or EOS has COUNT < K exactly when the stream ended or failed in it or had ended before; it
has COUNT 0 with RC OK exactly when ST is EOS after it and OUTQ was empty when its decode steps were done. -/
def Obligations.ShortReadMeansTheEnd : Prop :=
  ∀ (k : BitVec 24) (s t : State), s.HostInv → s.st = .ready ∨ s.st = .eos → k ≠ 0#24 → exec (.read k) s = .next t →
    (t.lastData.length < k.toNat ↔ t.st ≠ .ready)
      ∧ ∀ u, ReadRun k.toNat s u → ((t.lastData = [] ∧ t.lastRc = some 0#4) ↔ (t.st = .eos ∧ u.outQ = []))

/-- R186: a READ that meets an error stops decoding, enters FAULT and delivers every byte then in OUTQ, fewer than `k`,
with the error's code and COUNT their number. -/
def Obligations.ReadDeliversBytesBeforeAnError : Prop :=
  ∀ (k : BitVec 24) (s t : State), s.Inv → s.st = .ready → exec (.read k) s = .next t → t.st = .fault →
    ∃ u w, ReadRun k.toNat s u ∧ t.outbox = s.outbox ++ [.host w u.outQ []] ∧ t.outQ = []
      ∧ (respCount w).toNat = u.outQ.length ∧ u.outQ.length < k.toNat
      ∧ ((t.err = .data ∧ respRc w = 2#4) ∨ (t.err = .io ∧ respRc w = 3#4))

/-- R191: read-size independence: two hosts that READ the same stream in any sizes, each until an answer with
COUNT < K, receive the same bytes and the same last result code, and leave the engine in the same state. -/
def Obligations.ReadSizeIndependence : Prop :=
  ∀ (ks ks' : List (BitVec 24)) (s t t' : State), (∀ k ∈ ks, k ≠ 0#24) → (∀ k ∈ ks', k ≠ 0#24) →
    readUntilShort ks s = some t → readUntilShort ks' s = some t' →
      t.delivered = t'.delivered ∧ t.lastRc = t'.lastRc ∧ SameEngine t t' ∧ t.src = t'.src

/-- R188: RELEASE completes in every phase, answers OK, and leaves every element of R20 at its power-on value. That the
source and the requests waiting stay with the host is the model's reading (log entry 18, DEDUCED). -/
def Obligations.ReleaseCompletes : Prop :=
  ∀ s : State, exec .release s = .next { State.reset with
    src := s.src, inbox := s.inbox, outbox := s.outbox ++ [.host 0x00000000#32 [] []] }

/-- R189: STATUS completes in every phase and answers OK with the three words; it changes no state and pulls no
byte. -/
def Obligations.StatusCompletes : Prop :=
  ∀ s : State, exec .status s =
    .next { s with outbox := s.outbox ++ [.host 0x00000000#32 [] [s.w0, s.w1, s.w2]] }

/-- R32: the fields of W0, with the encodings of ST (R23) and ERR (R24) in numbers; under the invariant CODESIZE and
NEXT_CODE read in their legal ranges. -/
def Obligations.StatusWord0Fields : Prop :=
  ∀ s : State,
    ((s.w0.extractLsb' 0 2 = 0#2 ↔ s.st = .uninit) ∧ (s.w0.extractLsb' 0 2 = 1#2 ↔ s.st = .ready)
      ∧ (s.w0.extractLsb' 0 2 = 2#2 ↔ s.st = .eos) ∧ (s.w0.extractLsb' 0 2 = 3#2 ↔ s.st = .fault))
    ∧ ((s.w0.extractLsb' 2 2 = 0#2 ↔ s.err = .none) ∧ (s.w0.extractLsb' 2 2 = 1#2 ↔ s.err = .format)
      ∧ (s.w0.extractLsb' 2 2 = 2#2 ↔ s.err = .data) ∧ (s.w0.extractLsb' 2 2 = 3#2 ↔ s.err = .io))
    ∧ s.w0.extractLsb' 4 5 = s.codeSize ∧ s.w0.extractLsb' 9 17 = s.nextCode
    ∧ (s.w0.extractLsb' 26 1 = 1#1 ↔ s.prev ≠ []) ∧ s.w0.extractLsb' 27 5 = 0#5
    ∧ (s.Inv → (9 ≤ (s.w0.extractLsb' 4 5).toNat ∧ (s.w0.extractLsb' 4 5).toNat ≤ 16)
      ∧ (257 ≤ (s.w0.extractLsb' 9 17).toNat ∧ (s.w0.extractLsb' 9 17).toNat ≤ 65536))

/-- R33: the fields of W1. -/
def Obligations.StatusWord1Fields : Prop :=
  ∀ s : State, s.w1.extractLsb' 0 24 = s.errInfo ∧ s.w1.extractLsb' 24 8 = 0#8

/-- R34: the fields of W2; OUT_PENDING is the length of OUTQ between host commands. -/
def Obligations.StatusWord2Fields : Prop :=
  ∀ s : State, s.HostInv → (s.w2.extractLsb' 0 17).toNat = s.outQ.length ∧ s.outQ.length ≤ 65279
    ∧ s.w2.extractLsb' 17 7 = s.bitCnt ∧ s.w2.extractLsb' 24 8 = 0#8

/-- R190 and R215: an illegal word is answered ILLEGAL_CMD in every phase and changes no state. -/
def Obligations.IllegalCommandChangesNothing : Prop :=
  ∀ (w : BitVec 32) (s : State),
    exec (.illegalCmd w) s = .next { s with outbox := s.outbox ++ [.host 0x00000004#32 [] []] }

/-- R180: every host command that completes is answered exactly once, in the order of the commands, and takes no other
request from the inbox. -/
def Obligations.OneAnswerPerCommand : Prop :=
  ∀ (i : Instr) (s t : State), i.isHost = true → exec i s = .next t →
    t.inbox = s.inbox ∧ ∃ w data words, t.outbox = s.outbox ++ [.host w data words]

/-! ### Faults (60_exceptions.md) -/

/-- R217: FAULT is sticky: no host command but INIT and RELEASE changes any element of R20 in it, no byte is pulled,
and no code instruction runs. -/
def Obligations.FaultIsSticky : Prop :=
  ∀ (i : Instr) (s : State), s.st = .fault → i.isHost = true ∨ i.isCode = true →
    i ≠ .initRaw → i ≠ .initHdr → i ≠ .release →
      (i.isHost = true → ∃ t, exec i s = .next t ∧ SameEngine s t ∧ t.src = s.src)
        ∧ (i.isCode = true → exec i s = .refused .notReady)

/-- R216: the state after a fault in a READ: every decode step before it in full, and ST, ERR and ERRINFO. A decode
step that raises leaves DICT, NEXT_CODE, CODESIZE, PREV and OUTQ as the last good step left them. -/
def Obligations.FaultingDecodeStepIsPrecise : Prop :=
  ∀ s t : State, s.st = .ready → advance s = .next t → t.st = .fault →
    t.dict = s.dict ∧ t.nextCode = s.nextCode ∧ t.codeSize = s.codeSize ∧ t.prev = s.prev ∧ t.outQ = s.outQ
      ∧ (t.err = .data ∨ t.err = .io)
      ∧ (t.err = .data → t.bitsLeft + s.codeSize.toNat = s.bitsLeft)
      ∧ (t.err = .io → t.bitCnt.toNat = s.bitCnt.toNat + 8 * s.src.bytes.length ∧ t.src.bytes = [])

/-! ### The realisation (10_state.md R37 to R39) -/

/-- R37: appending the pair (code of PREV, first byte of the sequence) to a parent chain that represents the
dictionary represents the dictionary after the insertion; and with no insertion the chain stays right. -/
def Obligations.ParentChainRefinesTheDictionary : Prop :=
  ∀ (chain : Chain) (s t : State) (i : Instr), s.Inv → chain.represents s → i.resolves = true →
    exec i s = .next t →
      if s.prev ≠ [] ∧ s.nextCode.toNat < 65536 then
        ∀ p : BitVec 16, p.toNat < s.nextCode.toNat → p.toNat ≠ 256 → s.dict.read p.toNat = some s.prev →
          ∀ x ∈ t.prev.head?, Chain.represents (chain ++ [(p, x)]) t
      else chain.represents t

/-- R37: the empty chain represents the dictionary after each of the four reset events of R240: at power-on, after
RELEASE, after either INIT, whether it opened the stream or faulted, and after CLEAR. -/
def Obligations.EmptyChainRepresentsReset : Prop :=
  Chain.represents [] State.reset
    ∧ ∀ s t : State,
        exec .release s = .next t ∨ exec .initRaw s = .next t ∨ exec .initHdr s = .next t ∨ exec .clear s = .next t →
          Chain.represents [] t

/-- R38 and R39: between host commands PREV is exactly a valid bit and a code, OUTQ exactly a 16-bit count. -/
def Obligations.PrevAndOutqHaveExactRealisations : Prop :=
  ∀ s : State, s.HostInv →
    (∃ code : BitVec 16, prevOf s s.prevValid code = some s.prev)
      ∧ ∃ rem : BitVec 16, outOf s.prev rem = s.outQ
end

