-- ==== Sys2Proof/Laws/Bits.lean ====
section
/-! SUPPORT. The bit order of the code stream: numbers as lists of bits, earliest first (R63, R94). -/

namespace Sys2Proof

@[simp] theorem bitsOf_length (v n : Nat) : (bitsOf v n).length = n := by
  induction n generalizing v with
  | zero => rfl
  | succ n ih => simp [bitsOf, ih]

/-- The number read back from its bits (R94). -/
theorem valueOfBits_bitsOf (v n : Nat) : valueOfBits (bitsOf v n) = v % 2 ^ n := by
  induction n generalizing v with
  | zero => simp [bitsOf, valueOfBits, Nat.mod_one]
  | succ n ih =>
    have h2 : (v % 2 == 1).toNat = v % 2 := by
      rcases Nat.mod_two_eq_zero_or_one v with h | h <;> simp [h]
    simp only [bitsOf, valueOfBits, ih, h2]
    rw [Nat.pow_succ, Nat.mul_comm (2 ^ n) 2, Nat.mod_mul]

/-- The first `m` bits, then the rest. -/
theorem bitsOf_add (v m n : Nat) : bitsOf v (m + n) = bitsOf v m ++ bitsOf (v / 2 ^ m) n := by
  induction m generalizing v with
  | zero => simp [bitsOf]
  | succ m ih =>
    rw [Nat.add_right_comm]
    simp only [bitsOf, List.cons_append, ih]
    rw [Nat.div_div_eq_div_mul, Nat.pow_succ, Nat.mul_comm (2 ^ m) 2]

/-- Bits above the `n`-th do not show. -/
theorem bitsOf_mod (v n : Nat) : bitsOf (v % 2 ^ n) n = bitsOf v n := by
  induction n generalizing v with
  | zero => rfl
  | succ n ih =>
    have h1 : v % 2 ^ (n + 1) % 2 = v % 2 := Nat.mod_mod_of_dvd _ ⟨2 ^ n, by rw [Nat.pow_succ, Nat.mul_comm]⟩
    have h2 : v % 2 ^ (n + 1) / 2 = v / 2 % 2 ^ n := by
      rw [Nat.pow_succ, Nat.mul_comm (2 ^ n) 2, Nat.mod_mul_right_div_self]
    simp only [bitsOf, h1, h2, ih]

/-- Two numbers side by side. -/
theorem bitsOf_concat (a b m n : Nat) (h : a < 2 ^ m) : bitsOf (a + 2 ^ m * b) (m + n) = bitsOf a m ++ bitsOf b n := by
  have hd : (a + 2 ^ m * b) / 2 ^ m = b := by
    rw [Nat.add_mul_div_left _ _ (Nat.two_pow_pos m), Nat.div_eq_of_lt h, Nat.zero_add]
  rw [bitsOf_add, hd, ← bitsOf_mod (a + 2 ^ m * b) m, Nat.add_mul_mod_self_left, Nat.mod_eq_of_lt h]

theorem bitsOf_take (v m n : Nat) (h : m ≤ n) : (bitsOf v n).take m = bitsOf v m := by
  obtain ⟨k, rfl⟩ := Nat.exists_eq_add_of_le h
  rw [bitsOf_add, List.take_left' (bitsOf_length v m)]

theorem bitsOf_drop (v m n : Nat) (h : m ≤ n) : (bitsOf v n).drop m = bitsOf (v / 2 ^ m) (n - m) := by
  obtain ⟨k, rfl⟩ := Nat.exists_eq_add_of_le h
  rw [bitsOf_add, List.drop_left' (bitsOf_length v m), Nat.add_sub_cancel_left]

@[simp] theorem streamBits_nil : streamBits [] = [] := rfl

@[simp] theorem streamBits_cons (b : Byte) (bs : ByteSeq) : streamBits (b :: bs) = bitsOf b.toNat 8 ++ streamBits bs := rfl

@[simp] theorem streamBits_append (a b : ByteSeq) : streamBits (a ++ b) = streamBits a ++ streamBits b := by
  simp [streamBits]

@[simp] theorem streamBits_length (bs : ByteSeq) : (streamBits bs).length = 8 * bs.length := by
  induction bs with
  | nil => rfl
  | cons b bs ih => simp [ih]; omega

theorem valueOfBits_lt (bs : List Bool) : valueOfBits bs < 2 ^ bs.length := by
  induction bs with
  | nil => simp [valueOfBits]
  | cons b bs ih =>
    have hb : b.toNat ≤ 1 := Bool.toNat_le b
    simp only [valueOfBits, List.length_cons, Nat.pow_succ]
    omega

/-- A list of bits read back from its number. -/
theorem bitsOf_valueOfBits (bs : List Bool) : bitsOf (valueOfBits bs) bs.length = bs := by
  induction bs with
  | nil => rfl
  | cons b bs ih =>
    have h1 : (b.toNat + 2 * valueOfBits bs) % 2 = b.toNat := by
      have := Bool.toNat_le b; omega
    have h2 : (b.toNat + 2 * valueOfBits bs) / 2 = valueOfBits bs := by
      have := Bool.toNat_le b; omega
    simp only [valueOfBits, List.length_cons, bitsOf, h1, h2, ih]
    cases b <;> rfl

/-- Packing keeps the bits in order and adds at most 7 zero bits (R63, R110). -/
theorem streamBits_packBits (bs : List Bool) :
    ∃ pad, pad ≤ 7 ∧ streamBits (packBits bs) = bs ++ List.replicate pad false := by
  induction bs using packBits.induct with
  | case1 b0 b1 b2 b3 b4 b5 b6 b7 rest ih =>
    obtain ⟨pad, hp, he⟩ := ih
    refine ⟨pad, hp, ?_⟩
    have hlt := valueOfBits_lt [b0, b1, b2, b3, b4, b5, b6, b7]
    have hb := bitsOf_valueOfBits [b0, b1, b2, b3, b4, b5, b6, b7]
    simp only [packBits, streamBits_cons, BitVec.toNat_ofNat, he]
    rw [Nat.mod_eq_of_lt (by simpa using hlt)]
    simp only [List.length_cons, List.length_nil] at hb
    rw [hb]; rfl
  | case2 => exact ⟨0, by omega, rfl⟩
  | case3 bs h1 h2 =>
    have hlen : bs.length ≤ 7 := by
      by_contra hc
      rcases bs with _ | ⟨b0, _ | ⟨b1, _ | ⟨b2, _ | ⟨b3, _ | ⟨b4, _ | ⟨b5, _ | ⟨b6, _ | ⟨b7, rest⟩⟩⟩⟩⟩⟩⟩⟩
      all_goals first
        | exact h1 _ _ _ _ _ _ _ _ _ rfl
        | exact hc (by simp)
    refine ⟨8 - bs.length, ?_, ?_⟩
    · have : bs ≠ [] := h2
      have := List.length_pos_iff.2 this; omega
    · have hlt := valueOfBits_lt bs
      have h8 : valueOfBits bs < 2 ^ 8 := Nat.lt_of_lt_of_le hlt (Nat.pow_le_pow_right (by omega) (by omega))
      have hp : packBits bs = [BitVec.ofNat 8 (valueOfBits bs)] := by
        rw [packBits]
        · exact h1
        · exact h2
      rw [hp, streamBits_cons, BitVec.toNat_ofNat, Nat.mod_eq_of_lt h8]
      have hc := bitsOf_concat (valueOfBits bs) 0 bs.length (8 - bs.length) hlt
      rw [Nat.mul_zero, Nat.add_zero, Nat.add_sub_of_le (by omega), bitsOf_valueOfBits] at hc
      rw [hc, streamBits_nil, List.append_nil]
      congr 1
      have : ∀ n, bitsOf 0 n = List.replicate n false := by
        intro n; induction n with
        | zero => rfl
        | succ n ih => simp [bitsOf, ih, List.replicate_succ]
      exact this _

end Sys2Proof
end

