-- ==== Sys2Proof/Laws/State.lean ====
section
/-! SUPPORT. One lemma per field per update of State, so that no later proof unfolds a record update. -/

namespace Sys2Proof.Machine

variable (s : State)


/-! ### `reset_dict()` (R140) -/

@[simp] theorem State.resetDict_st : (s.resetDict).st = s.st := rfl
@[simp] theorem State.resetDict_err : (s.resetDict).err = s.err := rfl
@[simp] theorem State.resetDict_errInfo : (s.resetDict).errInfo = s.errInfo := rfl
@[simp] theorem State.resetDict_codeSize : (s.resetDict).codeSize = 9#5 := rfl
@[simp] theorem State.resetDict_nextCode : (s.resetDict).nextCode = 257#17 := rfl
@[simp] theorem State.resetDict_dict : (s.resetDict).dict = [] := rfl
@[simp] theorem State.resetDict_prev : (s.resetDict).prev = [] := rfl
@[simp] theorem State.resetDict_bitBuf : (s.resetDict).bitBuf = s.bitBuf := rfl
@[simp] theorem State.resetDict_bitCnt : (s.resetDict).bitCnt = s.bitCnt := rfl
@[simp] theorem State.resetDict_outQ : (s.resetDict).outQ = s.outQ := rfl
@[simp] theorem State.resetDict_src : (s.resetDict).src = s.src := rfl
@[simp] theorem State.resetDict_inbox : (s.resetDict).inbox = s.inbox := rfl
@[simp] theorem State.resetDict_outbox : (s.resetDict).outbox = s.outbox := rfl

/-! ### INIT before its header check (R242) -/

@[simp] theorem State.newStream_st : (s.newStream).st = s.st := rfl
@[simp] theorem State.newStream_err : (s.newStream).err = .none := rfl
@[simp] theorem State.newStream_errInfo : (s.newStream).errInfo = 0#24 := rfl
@[simp] theorem State.newStream_codeSize : (s.newStream).codeSize = 9#5 := rfl
@[simp] theorem State.newStream_nextCode : (s.newStream).nextCode = 257#17 := rfl
@[simp] theorem State.newStream_dict : (s.newStream).dict = [] := rfl
@[simp] theorem State.newStream_prev : (s.newStream).prev = [] := rfl
@[simp] theorem State.newStream_bitBuf : (s.newStream).bitBuf = 0#72 := rfl
@[simp] theorem State.newStream_bitCnt : (s.newStream).bitCnt = 0#7 := rfl
@[simp] theorem State.newStream_outQ : (s.newStream).outQ = [] := rfl
@[simp] theorem State.newStream_src : (s.newStream).src = s.src.restart := rfl
@[simp] theorem State.newStream_inbox : (s.newStream).inbox = s.inbox := rfl
@[simp] theorem State.newStream_outbox : (s.newStream).outbox = s.outbox := rfl

/-! ### Power-on values (R241) -/

@[simp] theorem State.powerOn_st : (s.powerOn).st = .uninit := rfl
@[simp] theorem State.powerOn_err : (s.powerOn).err = .none := rfl
@[simp] theorem State.powerOn_errInfo : (s.powerOn).errInfo = 0#24 := rfl
@[simp] theorem State.powerOn_codeSize : (s.powerOn).codeSize = 9#5 := rfl
@[simp] theorem State.powerOn_nextCode : (s.powerOn).nextCode = 257#17 := rfl
@[simp] theorem State.powerOn_dict : (s.powerOn).dict = [] := rfl
@[simp] theorem State.powerOn_prev : (s.powerOn).prev = [] := rfl
@[simp] theorem State.powerOn_bitBuf : (s.powerOn).bitBuf = 0#72 := rfl
@[simp] theorem State.powerOn_bitCnt : (s.powerOn).bitCnt = 0#7 := rfl
@[simp] theorem State.powerOn_outQ : (s.powerOn).outQ = [] := rfl
@[simp] theorem State.powerOn_src : (s.powerOn).src = s.src := rfl
@[simp] theorem State.powerOn_inbox : (s.powerOn).inbox = s.inbox := rfl
@[simp] theorem State.powerOn_outbox : (s.powerOn).outbox = s.outbox := rfl

/-! ### Fault entry (R216) -/

@[simp] theorem State.raise_st (k : ErrKind) (info : BitVec 24) : (s.raise k info).st = .fault := rfl
@[simp] theorem State.raise_err (k : ErrKind) (info : BitVec 24) : (s.raise k info).err = k := rfl
@[simp] theorem State.raise_errInfo (k : ErrKind) (info : BitVec 24) : (s.raise k info).errInfo = info := rfl
@[simp] theorem State.raise_codeSize (k : ErrKind) (info : BitVec 24) : (s.raise k info).codeSize = s.codeSize := rfl
@[simp] theorem State.raise_nextCode (k : ErrKind) (info : BitVec 24) : (s.raise k info).nextCode = s.nextCode := rfl
@[simp] theorem State.raise_dict (k : ErrKind) (info : BitVec 24) : (s.raise k info).dict = s.dict := rfl
@[simp] theorem State.raise_prev (k : ErrKind) (info : BitVec 24) : (s.raise k info).prev = s.prev := rfl
@[simp] theorem State.raise_bitBuf (k : ErrKind) (info : BitVec 24) : (s.raise k info).bitBuf = s.bitBuf := rfl
@[simp] theorem State.raise_bitCnt (k : ErrKind) (info : BitVec 24) : (s.raise k info).bitCnt = s.bitCnt := rfl
@[simp] theorem State.raise_outQ (k : ErrKind) (info : BitVec 24) : (s.raise k info).outQ = s.outQ := rfl
@[simp] theorem State.raise_src (k : ErrKind) (info : BitVec 24) : (s.raise k info).src = s.src := rfl
@[simp] theorem State.raise_inbox (k : ErrKind) (info : BitVec 24) : (s.raise k info).inbox = s.inbox := rfl
@[simp] theorem State.raise_outbox (k : ErrKind) (info : BitVec 24) : (s.raise k info).outbox = s.outbox := rfl

/-! ### PREV and emission (R151, R152) -/

@[simp] theorem State.emit_st (seq : ByteSeq) : (s.emit seq).st = s.st := rfl
@[simp] theorem State.emit_err (seq : ByteSeq) : (s.emit seq).err = s.err := rfl
@[simp] theorem State.emit_errInfo (seq : ByteSeq) : (s.emit seq).errInfo = s.errInfo := rfl
@[simp] theorem State.emit_codeSize (seq : ByteSeq) : (s.emit seq).codeSize = s.codeSize := rfl
@[simp] theorem State.emit_nextCode (seq : ByteSeq) : (s.emit seq).nextCode = s.nextCode := rfl
@[simp] theorem State.emit_dict (seq : ByteSeq) : (s.emit seq).dict = s.dict := rfl
@[simp] theorem State.emit_prev (seq : ByteSeq) : (s.emit seq).prev = seq := rfl
@[simp] theorem State.emit_bitBuf (seq : ByteSeq) : (s.emit seq).bitBuf = s.bitBuf := rfl
@[simp] theorem State.emit_bitCnt (seq : ByteSeq) : (s.emit seq).bitCnt = s.bitCnt := rfl
@[simp] theorem State.emit_outQ (seq : ByteSeq) : (s.emit seq).outQ = s.outQ ++ seq := rfl
@[simp] theorem State.emit_src (seq : ByteSeq) : (s.emit seq).src = s.src := rfl
@[simp] theorem State.emit_inbox (seq : ByteSeq) : (s.emit seq).inbox = s.inbox := rfl
@[simp] theorem State.emit_outbox (seq : ByteSeq) : (s.emit seq).outbox = s.outbox := rfl

/-! ### Answers (R180) -/

@[simp] theorem State.answer_st (r : Response) : (s.answer r).st = s.st := rfl
@[simp] theorem State.answer_err (r : Response) : (s.answer r).err = s.err := rfl
@[simp] theorem State.answer_errInfo (r : Response) : (s.answer r).errInfo = s.errInfo := rfl
@[simp] theorem State.answer_codeSize (r : Response) : (s.answer r).codeSize = s.codeSize := rfl
@[simp] theorem State.answer_nextCode (r : Response) : (s.answer r).nextCode = s.nextCode := rfl
@[simp] theorem State.answer_dict (r : Response) : (s.answer r).dict = s.dict := rfl
@[simp] theorem State.answer_prev (r : Response) : (s.answer r).prev = s.prev := rfl
@[simp] theorem State.answer_bitBuf (r : Response) : (s.answer r).bitBuf = s.bitBuf := rfl
@[simp] theorem State.answer_bitCnt (r : Response) : (s.answer r).bitCnt = s.bitCnt := rfl
@[simp] theorem State.answer_outQ (r : Response) : (s.answer r).outQ = s.outQ := rfl
@[simp] theorem State.answer_src (r : Response) : (s.answer r).src = s.src := rfl
@[simp] theorem State.answer_inbox (r : Response) : (s.answer r).inbox = s.inbox := rfl
@[simp] theorem State.answer_outbox (r : Response) : (s.answer r).outbox = s.outbox ++ [r] := rfl
@[simp] theorem State.respond_st (rc : BitVec 4) : (s.respond rc).st = s.st := rfl
@[simp] theorem State.respond_err (rc : BitVec 4) : (s.respond rc).err = s.err := rfl
@[simp] theorem State.respond_errInfo (rc : BitVec 4) : (s.respond rc).errInfo = s.errInfo := rfl
@[simp] theorem State.respond_codeSize (rc : BitVec 4) : (s.respond rc).codeSize = s.codeSize := rfl
@[simp] theorem State.respond_nextCode (rc : BitVec 4) : (s.respond rc).nextCode = s.nextCode := rfl
@[simp] theorem State.respond_dict (rc : BitVec 4) : (s.respond rc).dict = s.dict := rfl
@[simp] theorem State.respond_prev (rc : BitVec 4) : (s.respond rc).prev = s.prev := rfl
@[simp] theorem State.respond_bitBuf (rc : BitVec 4) : (s.respond rc).bitBuf = s.bitBuf := rfl
@[simp] theorem State.respond_bitCnt (rc : BitVec 4) : (s.respond rc).bitCnt = s.bitCnt := rfl
@[simp] theorem State.respond_outQ (rc : BitVec 4) : (s.respond rc).outQ = s.outQ := rfl
@[simp] theorem State.respond_src (rc : BitVec 4) : (s.respond rc).src = s.src := rfl
@[simp] theorem State.respond_inbox (rc : BitVec 4) : (s.respond rc).inbox = s.inbox := rfl
@[simp] theorem State.respond_outbox (rc : BitVec 4) : (s.respond rc).outbox = s.outbox ++ [.host (resp32 rc 0#24) [] []] := rfl
@[simp] theorem State.respondErr_st : (s.respondErr).st = s.st := rfl
@[simp] theorem State.respondErr_err : (s.respondErr).err = s.err := rfl
@[simp] theorem State.respondErr_errInfo : (s.respondErr).errInfo = s.errInfo := rfl
@[simp] theorem State.respondErr_codeSize : (s.respondErr).codeSize = s.codeSize := rfl
@[simp] theorem State.respondErr_nextCode : (s.respondErr).nextCode = s.nextCode := rfl
@[simp] theorem State.respondErr_dict : (s.respondErr).dict = s.dict := rfl
@[simp] theorem State.respondErr_prev : (s.respondErr).prev = s.prev := rfl
@[simp] theorem State.respondErr_bitBuf : (s.respondErr).bitBuf = s.bitBuf := rfl
@[simp] theorem State.respondErr_bitCnt : (s.respondErr).bitCnt = s.bitCnt := rfl
@[simp] theorem State.respondErr_outQ : (s.respondErr).outQ = s.outQ := rfl
@[simp] theorem State.respondErr_src : (s.respondErr).src = s.src := rfl
@[simp] theorem State.respondErr_inbox : (s.respondErr).inbox = s.inbox := rfl
@[simp] theorem State.respondErr_outbox : (s.respondErr).outbox = s.outbox ++ [.host (resp32 s.err.rc 0#24) [] []] := rfl
@[simp] theorem State.deliver_st (k : Nat) : (s.deliver k).st = s.st := rfl
@[simp] theorem State.deliver_err (k : Nat) : (s.deliver k).err = s.err := rfl
@[simp] theorem State.deliver_errInfo (k : Nat) : (s.deliver k).errInfo = s.errInfo := rfl
@[simp] theorem State.deliver_codeSize (k : Nat) : (s.deliver k).codeSize = s.codeSize := rfl
@[simp] theorem State.deliver_nextCode (k : Nat) : (s.deliver k).nextCode = s.nextCode := rfl
@[simp] theorem State.deliver_dict (k : Nat) : (s.deliver k).dict = s.dict := rfl
@[simp] theorem State.deliver_prev (k : Nat) : (s.deliver k).prev = s.prev := rfl
@[simp] theorem State.deliver_bitBuf (k : Nat) : (s.deliver k).bitBuf = s.bitBuf := rfl
@[simp] theorem State.deliver_bitCnt (k : Nat) : (s.deliver k).bitCnt = s.bitCnt := rfl
@[simp] theorem State.deliver_outQ (k : Nat) : (s.deliver k).outQ = s.outQ.drop k := rfl
@[simp] theorem State.deliver_src (k : Nat) : (s.deliver k).src = s.src := rfl
@[simp] theorem State.deliver_inbox (k : Nat) : (s.deliver k).inbox = s.inbox := rfl
@[simp] theorem State.deliver_outbox (k : Nat) : (s.deliver k).outbox = s.outbox ++ [.host (resp32 s.readRc (BitVec.ofNat 24 (min s.outQ.length k))) (s.outQ.take k) []] := rfl

/-! ### The width rule (R150) and the insertion (R149): the fields they leave -/

@[simp] theorem State.growWidth_st : s.growWidth.st = s.st := by unfold State.growWidth; split <;> rfl
@[simp] theorem State.growWidth_err : s.growWidth.err = s.err := by unfold State.growWidth; split <;> rfl
@[simp] theorem State.growWidth_errInfo : s.growWidth.errInfo = s.errInfo := by unfold State.growWidth; split <;> rfl
@[simp] theorem State.growWidth_nextCode : s.growWidth.nextCode = s.nextCode := by unfold State.growWidth; split <;> rfl
@[simp] theorem State.growWidth_dict : s.growWidth.dict = s.dict := by unfold State.growWidth; split <;> rfl
@[simp] theorem State.growWidth_prev : s.growWidth.prev = s.prev := by unfold State.growWidth; split <;> rfl
@[simp] theorem State.growWidth_bitBuf : s.growWidth.bitBuf = s.bitBuf := by unfold State.growWidth; split <;> rfl
@[simp] theorem State.growWidth_bitCnt : s.growWidth.bitCnt = s.bitCnt := by unfold State.growWidth; split <;> rfl
@[simp] theorem State.growWidth_outQ : s.growWidth.outQ = s.outQ := by unfold State.growWidth; split <;> rfl
@[simp] theorem State.growWidth_src : s.growWidth.src = s.src := by unfold State.growWidth; split <;> rfl
@[simp] theorem State.growWidth_inbox : s.growWidth.inbox = s.inbox := by unfold State.growWidth; split <;> rfl
@[simp] theorem State.growWidth_outbox : s.growWidth.outbox = s.outbox := by unfold State.growWidth; split <;> rfl
@[simp] theorem State.insert_st (b : Byte) : (s.insert b).st = s.st := by unfold State.insert; split <;> simp
@[simp] theorem State.insert_err (b : Byte) : (s.insert b).err = s.err := by unfold State.insert; split <;> simp
@[simp] theorem State.insert_errInfo (b : Byte) : (s.insert b).errInfo = s.errInfo := by unfold State.insert; split <;> simp
@[simp] theorem State.insert_prev (b : Byte) : (s.insert b).prev = s.prev := by unfold State.insert; split <;> simp
@[simp] theorem State.insert_bitBuf (b : Byte) : (s.insert b).bitBuf = s.bitBuf := by unfold State.insert; split <;> simp
@[simp] theorem State.insert_bitCnt (b : Byte) : (s.insert b).bitCnt = s.bitCnt := by unfold State.insert; split <;> simp
@[simp] theorem State.insert_outQ (b : Byte) : (s.insert b).outQ = s.outQ := by unfold State.insert; split <;> simp
@[simp] theorem State.insert_src (b : Byte) : (s.insert b).src = s.src := by unfold State.insert; split <;> simp
@[simp] theorem State.insert_inbox (b : Byte) : (s.insert b).inbox = s.inbox := by unfold State.insert; split <;> simp
@[simp] theorem State.insert_outbox (b : Byte) : (s.insert b).outbox = s.outbox := by unfold State.insert; split <;> simp

/-! ### The tail of a decode step (R141): the fields it leaves or sets outright -/

@[simp] theorem State.accept_st (b : Byte) (r : ByteSeq) : (s.accept b r).st = s.st := by simp [State.accept]
@[simp] theorem State.accept_err (b : Byte) (r : ByteSeq) : (s.accept b r).err = s.err := by simp [State.accept]
@[simp] theorem State.accept_errInfo (b : Byte) (r : ByteSeq) : (s.accept b r).errInfo = s.errInfo := by simp [State.accept]
@[simp] theorem State.accept_codeSize (b : Byte) (r : ByteSeq) : (s.accept b r).codeSize = (s.insert b).codeSize := rfl
@[simp] theorem State.accept_nextCode (b : Byte) (r : ByteSeq) : (s.accept b r).nextCode = (s.insert b).nextCode := rfl
@[simp] theorem State.accept_dict (b : Byte) (r : ByteSeq) : (s.accept b r).dict = (s.insert b).dict := rfl
@[simp] theorem State.accept_prev (b : Byte) (r : ByteSeq) : (s.accept b r).prev = b :: r := by simp [State.accept]
@[simp] theorem State.accept_bitBuf (b : Byte) (r : ByteSeq) : (s.accept b r).bitBuf = s.bitBuf := by simp [State.accept]
@[simp] theorem State.accept_bitCnt (b : Byte) (r : ByteSeq) : (s.accept b r).bitCnt = s.bitCnt := by simp [State.accept]
@[simp] theorem State.accept_outQ (b : Byte) (r : ByteSeq) : (s.accept b r).outQ = s.outQ ++ b :: r := by simp [State.accept]
@[simp] theorem State.accept_src (b : Byte) (r : ByteSeq) : (s.accept b r).src = s.src := by simp [State.accept]
@[simp] theorem State.accept_inbox (b : Byte) (r : ByteSeq) : (s.accept b r).inbox = s.inbox := by simp [State.accept]
@[simp] theorem State.accept_outbox (b : Byte) (r : ByteSeq) : (s.accept b r).outbox = s.outbox := by simp [State.accept]

/-! ### Handing over a source (R194) -/

@[simp] theorem State.handOver_st (i : Instr) (h : Option Source) : (s.handOver i h).st = s.st := by
  cases i <;> cases h <;> rfl
@[simp] theorem State.handOver_err (i : Instr) (h : Option Source) : (s.handOver i h).err = s.err := by
  cases i <;> cases h <;> rfl
@[simp] theorem State.handOver_errInfo (i : Instr) (h : Option Source) : (s.handOver i h).errInfo = s.errInfo := by
  cases i <;> cases h <;> rfl
@[simp] theorem State.handOver_codeSize (i : Instr) (h : Option Source) : (s.handOver i h).codeSize = s.codeSize := by
  cases i <;> cases h <;> rfl
@[simp] theorem State.handOver_nextCode (i : Instr) (h : Option Source) : (s.handOver i h).nextCode = s.nextCode := by
  cases i <;> cases h <;> rfl
@[simp] theorem State.handOver_dict (i : Instr) (h : Option Source) : (s.handOver i h).dict = s.dict := by
  cases i <;> cases h <;> rfl
@[simp] theorem State.handOver_prev (i : Instr) (h : Option Source) : (s.handOver i h).prev = s.prev := by
  cases i <;> cases h <;> rfl
@[simp] theorem State.handOver_bitBuf (i : Instr) (h : Option Source) : (s.handOver i h).bitBuf = s.bitBuf := by
  cases i <;> cases h <;> rfl
@[simp] theorem State.handOver_bitCnt (i : Instr) (h : Option Source) : (s.handOver i h).bitCnt = s.bitCnt := by
  cases i <;> cases h <;> rfl
@[simp] theorem State.handOver_outQ (i : Instr) (h : Option Source) : (s.handOver i h).outQ = s.outQ := by
  cases i <;> cases h <;> rfl
@[simp] theorem State.handOver_inbox (i : Instr) (h : Option Source) : (s.handOver i h).inbox = s.inbox := by
  cases i <;> cases h <;> rfl
@[simp] theorem State.handOver_outbox (i : Instr) (h : Option Source) : (s.handOver i h).outbox = s.outbox := by
  cases i <;> cases h <;> rfl

/-! ### The source's counts (R22) -/

@[simp] theorem Source.restart_bytes (q : Source) : q.restart.bytes = q.bytes := rfl
@[simp] theorem Source.restart_term (q : Source) : q.restart.term = q.term := rfl
@[simp] theorem Source.restart_pulls (q : Source) : q.restart.pulls = 0 := rfl
@[simp] theorem Source.restart_taken (q : Source) : q.restart.taken = 0 := rfl

end Sys2Proof.Machine
end

