-- ==== Sys2Proof/Laws/BitReader.lean ====
section
/-! SUPPORT. What the pull loop and `BR.get` can do, said once. -/

namespace Sys2Proof.Machine

/-- Everything the pull loop does (R121, R122, R125): it takes the first `m` bytes of the source, one pull each, and
stops with enough bits, or with the source used up and too few. -/
structure FillSpec (n : Nat) (term : Terminator) (bytes : ByteSeq) (buf : BitVec 72) (cnt : BitVec 7)
    (pulls taken m : Nat) (f : Fill) : Prop where
  le     : m ≤ bytes.length
  left   : f.src.bytes = bytes.drop m
  same   : f.src.term = term
  count  : f.bitCnt.toNat = cnt.toNat + 8 * m
  took   : f.src.taken = taken + m
  enough : f.stop = .enough → n ≤ f.bitCnt.toNat ∧ (m = 0 ∨ f.bitCnt.toNat < n + 8) ∧ f.src.pulls = pulls + m
  few    : f.stop ≠ .enough → m = bytes.length ∧ f.bitCnt.toNat < n
  atEnd  : f.stop = .atEnd → term = .eof ∧ f.src.pulls = pulls + m + 1
  ioErr  : ∀ e, f.stop = .ioErr e → term = .err e ∧ f.src.pulls = pulls + m + 1
  silent : f.stop = .blocked → term = .silent
  bits   : buf.toNat < 2 ^ cnt.toNat → f.bitBuf.toNat < 2 ^ f.bitCnt.toNat
    ∧ bitsOf f.bitBuf.toNat f.bitCnt.toNat = bitsOf buf.toNat cnt.toNat ++ streamBits (bytes.take m)

/-- R122: the accumulator after a byte is appended. -/
theorem appendByte_toNat (buf : BitVec 72) (cnt : BitVec 7) (b : Byte) (hc : cnt.toNat < 64)
    (hb : buf.toNat < 2 ^ cnt.toNat) : (appendByte buf cnt b).toNat = buf.toNat + 2 ^ cnt.toNat * b.toNat := by
  have hlt : b.toNat < 2 ^ 8 := b.isLt
  have hs : b.toNat * 2 ^ cnt.toNat < 2 ^ 72 := by
    calc b.toNat * 2 ^ cnt.toNat < 2 ^ 8 * 2 ^ cnt.toNat :=
          Nat.mul_lt_mul_of_pos_right hlt (Nat.two_pow_pos _)
      _ = 2 ^ (8 + cnt.toNat) := (Nat.pow_add _ _ _).symm
      _ ≤ 2 ^ 72 := Nat.pow_le_pow_right (by omega) (by omega)
  have hw : (b.setWidth 72).toNat = b.toNat := by
    rw [BitVec.toNat_setWidth]; exact Nat.mod_eq_of_lt (Nat.lt_of_lt_of_le hlt (by decide))
  rw [appendByte, BitVec.toNat_or, BitVec.toNat_shiftLeft, hw, Nat.shiftLeft_eq, Nat.mod_eq_of_lt hs, Nat.or_comm,
    ← Nat.shiftLeft_eq, ← Nat.shiftLeft_add_eq_or_of_lt hb, Nat.shiftLeft_eq, Nat.add_comm, Nat.mul_comm]

theorem fill_spec (n : Nat) (term : Terminator) (hn : n ≤ 64) (bytes : ByteSeq) :
    ∀ (buf : BitVec 72) (cnt : BitVec 7) (pulls taken : Nat),
      ∃ m, FillSpec n term bytes buf cnt pulls taken m (fill n term bytes buf cnt pulls taken) := by
  induction bytes with
  | nil =>
    intro buf cnt pulls taken
    refine ⟨0, ?_⟩
    unfold fill
    split
    · constructor <;> simp_all
    · cases term <;> constructor <;> simp_all
  | cons b rest ih =>
    intro buf cnt pulls taken
    by_cases h : n ≤ cnt.toNat
    · refine ⟨0, ?_⟩
      rw [fill, if_pos h]
      constructor <;> simp_all
    · obtain ⟨m, hm⟩ := ih (appendByte buf cnt b) (cnt + 8#7) (pulls + 1) (taken + 1)
      have h8 : (cnt + 8#7).toNat = cnt.toNat + 8 := by
        rw [BitVec.toNat_add]; exact Nat.mod_eq_of_lt (by simp; omega)
      refine ⟨m + 1, ?_⟩
      rw [fill, if_neg h]
      constructor
      · simpa using hm.le
      · simpa using hm.left
      · exact hm.same
      · rw [hm.count, h8]; omega
      · rw [hm.took]; omega
      · intro hs
        obtain ⟨h1, h2, h3⟩ := hm.enough hs
        have := hm.count
        refine ⟨h1, .inr ?_, by rw [h3]; omega⟩
        rcases h2 with rfl | h2
        · omega
        · exact h2
      · intro hs
        obtain ⟨h1, h2⟩ := hm.few hs
        exact ⟨by simp [h1], h2⟩
      · intro hs
        obtain ⟨h1, h2⟩ := hm.atEnd hs
        exact ⟨h1, by rw [h2]; omega⟩
      · intro e hs
        obtain ⟨h1, h2⟩ := hm.ioErr e hs
        exact ⟨h1, by rw [h2]; omega⟩
      · exact hm.silent
      · intro hb
        have ha := appendByte_toNat buf cnt b (by omega) hb
        have hlt : b.toNat < 2 ^ 8 := b.isLt
        have hn' : (appendByte buf cnt b).toNat < 2 ^ (cnt + 8#7).toNat := by
          rw [ha, h8, Nat.pow_add]
          calc buf.toNat + 2 ^ cnt.toNat * b.toNat < 2 ^ cnt.toNat * 1 + 2 ^ cnt.toNat * b.toNat := by omega
            _ = 2 ^ cnt.toNat * (1 + b.toNat) := (Nat.mul_add _ _ _).symm
            _ ≤ 2 ^ cnt.toNat * 2 ^ 8 := Nat.mul_le_mul_left _ (by omega)
        obtain ⟨h1, h2⟩ := hm.bits hn'
        refine ⟨h1, ?_⟩
        rw [h2, ha, h8, bitsOf_concat _ _ _ _ hb]
        simp

/-- The pull loop on the machine's state. -/
theorem State.fill_spec (n : Nat) (hn : n ≤ 64) (s : State) :
    ∃ m, FillSpec n s.src.term s.src.bytes s.bitBuf s.bitCnt s.src.pulls s.src.taken m (s.fill n) :=
  Machine.fill_spec n s.src.term hn s.src.bytes s.bitBuf s.bitCnt s.src.pulls s.src.taken

/-- What `BR.get(n)` leaves alone: everything but BITQ and the source. -/
structure BrKeeps (s t : State) : Prop where
  st       : t.st = s.st
  err      : t.err = s.err
  errInfo  : t.errInfo = s.errInfo
  codeSize : t.codeSize = s.codeSize
  nextCode : t.nextCode = s.nextCode
  dict     : t.dict = s.dict
  prev     : t.prev = s.prev
  outQ     : t.outQ = s.outQ
  inbox    : t.inbox = s.inbox
  outbox   : t.outbox = s.outbox
  term     : t.src.term = s.src.term

/-- Every result of `BR.get(n)` leaves the rest of the state alone. -/
theorem State.brGet_keeps (n : Nat) (hn : n ≤ 64) (s t : State) (r : BrResult) (h : s.brGet n = some (r, t)) :
    BrKeeps s t := by
  obtain ⟨m, hm⟩ := s.fill_spec n hn
  unfold State.brGet at h
  simp only at h
  split at h <;> cases h <;> constructor <;> first | rfl | exact hm.same

/-- A successful `BR.get(n)` (R123, R125): the bits it consumed, the value, the pulls. -/
structure BrValue (n : Nat) (s t : State) (v : BitVec 64) (m : Nat) : Prop where
  keeps : BrKeeps s t
  le    : m ≤ s.src.bytes.length
  bytes : t.src.bytes = s.src.bytes.drop m
  cnt   : t.bitCnt.toNat + n = s.bitCnt.toNat + 8 * m
  small : m = 0 ∨ t.bitCnt.toNat < 8
  lazy  : m = 0 ∨ s.bitCnt.toNat + 8 * m < n + 8
  pulls : t.src.pulls = s.src.pulls + m
  taken : t.src.taken = s.src.taken + m
  bound : v.toNat < 2 ^ n
  bits  : s.bitBuf.toNat < 2 ^ s.bitCnt.toNat → t.bitBuf.toNat < 2 ^ t.bitCnt.toNat
    ∧ bitsOf v.toNat n = (s.bitQ ++ streamBits s.src.bytes).take n
    ∧ t.bitQ ++ streamBits t.src.bytes = (s.bitQ ++ streamBits s.src.bytes).drop n

theorem State.brGet_value (n : Nat) (hn : n ≤ 64) (s t : State) (v : BitVec 64)
    (h : s.brGet n = some (.value v, t)) : ∃ m, BrValue n s t v m := by
  have hk := s.brGet_keeps n hn t _ h
  obtain ⟨m, hm⟩ := s.fill_spec n hn
  refine ⟨m, ?_⟩
  unfold State.brGet at h
  simp only at h
  split at h
  case h_2 => cases h
  case h_3 => cases h
  case h_4 => cases h
  rename_i hs
  obtain ⟨h1, h2, h3⟩ := hm.enough hs
  have hc := hm.count
  have hlt : (s.fill n).bitCnt.toNat < 128 := (s.fill n).bitCnt.isLt
  have hsub : ((s.fill n).bitCnt - BitVec.ofNat 7 n).toNat = (s.fill n).bitCnt.toNat - n := by
    have hn7 : (BitVec.ofNat 7 n).toNat = n := by
      rw [BitVec.toNat_ofNat]; exact Nat.mod_eq_of_lt (by omega)
    rw [BitVec.toNat_sub_of_le (by rw [BitVec.le_def, hn7]; exact h1), hn7]
  have hpow : 2 ^ n ≤ 2 ^ 64 := Nat.pow_le_pow_right (by omega) hn
  have hv : (BitVec.ofNat 64 ((s.fill n).bitBuf.toNat % 2 ^ n)).toNat = (s.fill n).bitBuf.toNat % 2 ^ n := by
    rw [BitVec.toNat_ofNat]
    exact Nat.mod_eq_of_lt (Nat.lt_of_lt_of_le (Nat.mod_lt _ (Nat.two_pow_pos n)) hpow)
  cases h
  refine ⟨hk, hm.le, hm.left, ?_, ?_, ?_, h3, hm.took, ?_, ?_⟩
  · show ((s.fill n).bitCnt - BitVec.ofNat 7 n).toNat + n = _
    rw [hsub]; omega
  · rcases h2 with h2 | h2
    · exact .inl h2
    · right
      show ((s.fill n).bitCnt - BitVec.ofNat 7 n).toNat < 8
      rw [hsub]; omega
  · rcases h2 with h2 | h2
    · exact .inl h2
    · exact .inr (by omega)
  · rw [hv]; exact Nat.mod_lt _ (Nat.two_pow_pos n)
  · intro hb
    obtain ⟨hb1, hb2⟩ := hm.bits hb
    have hshift : ((s.fill n).bitBuf >>> n).toNat = (s.fill n).bitBuf.toNat / 2 ^ n := by
      rw [BitVec.toNat_ushiftRight, Nat.shiftRight_eq_div_pow]
    have hall : s.bitQ ++ streamBits s.src.bytes
        = bitsOf (s.fill n).bitBuf.toNat (s.fill n).bitCnt.toNat ++ streamBits (s.src.bytes.drop m) := by
      rw [hb2, List.append_assoc, ← streamBits_append, List.take_append_drop]; rfl
    refine ⟨?_, ?_, ?_⟩
    · show ((s.fill n).bitBuf >>> n).toNat < 2 ^ ((s.fill n).bitCnt - BitVec.ofNat 7 n).toNat
      rw [hshift, hsub, Nat.div_lt_iff_lt_mul (Nat.two_pow_pos n), ← Nat.pow_add, Nat.sub_add_cancel h1]
      exact hb1
    · rw [hv, bitsOf_mod, hall, List.take_append_of_le_length (by simpa using h1), bitsOf_take _ _ _ h1]
    · show bitsOf ((s.fill n).bitBuf >>> n).toNat ((s.fill n).bitCnt - BitVec.ofNat 7 n).toNat
          ++ streamBits (s.fill n).src.bytes = _
      rw [hshift, hsub, hm.left, hall, List.drop_append_of_le_length (by simpa using h1), bitsOf_drop _ _ _ h1]

/-- `BR.get(n)` that finds too few bits (R124, R128): everything left is pulled into BITQ. -/
structure BrShort (n : Nat) (s t : State) : Prop where
  keeps : BrKeeps s t
  bytes : t.src.bytes = []
  cnt   : t.bitCnt.toNat = s.bitCnt.toNat + 8 * s.src.bytes.length
  few   : t.bitCnt.toNat < n
  pulls : t.src.pulls = s.src.pulls + s.src.bytes.length + 1
  taken : t.src.taken = s.src.taken + s.src.bytes.length
  bits  : s.bitBuf.toNat < 2 ^ s.bitCnt.toNat → t.bitBuf.toNat < 2 ^ t.bitCnt.toNat
    ∧ t.bitQ = s.bitQ ++ streamBits s.src.bytes

theorem State.brGet_short (n : Nat) (hn : n ≤ 64) (s t : State) (r : BrResult) (h : s.brGet n = some (r, t))
    (hr : ∀ v, r ≠ .value v) :
    BrShort n s t ∧ (r = .noData → s.src.term = .eof) ∧ (∀ e, r = .ioErr e → s.src.term = .err e) := by
  have hk := s.brGet_keeps n hn t _ h
  obtain ⟨m, hm⟩ := s.fill_spec n hn
  unfold State.brGet at h
  simp only at h
  have short : (s.fill n).stop ≠ .enough → (s.fill n).src.pulls = s.src.pulls + m + 1 →
      t.src = (s.fill n).src → t.bitCnt = (s.fill n).bitCnt → t.bitBuf = (s.fill n).bitBuf → BrShort n s t := by
    intro hs hp h1 h2 h3
    obtain ⟨hl, hf⟩ := hm.few hs
    refine ⟨hk, by rw [h1, hm.left, hl, List.drop_length], by rw [h2, hm.count, hl], by rw [h2]; exact hf,
      by rw [h1, hp, hl], by rw [h1, hm.took, hl], fun hb => ?_⟩
    obtain ⟨hb1, hb2⟩ := hm.bits hb
    rw [State.bitQ, h2, h3]
    exact ⟨hb1, by rw [hb2, hl, List.take_length]; rfl⟩
  split at h
  · cases h; exact absurd rfl (hr _)
  · rename_i hs
    cases h
    obtain ⟨h1, h2⟩ := hm.atEnd hs
    exact ⟨short (by simp [hs]) h2 rfl rfl rfl, fun _ => h1, fun e he => by cases he⟩
  · rename_i e hs
    cases h
    obtain ⟨h1, h2⟩ := hm.ioErr _ hs
    refine ⟨short (by simp [hs]) h2 rfl rfl rfl, (fun he => by cases he), (fun e' he => ?_)⟩
    cases he; exact h1
  · cases h

/-- `BR.get(n)` waits only for a source that never answers, with too few bits left (R223). -/
theorem State.brGet_none (n : Nat) (hn : n ≤ 64) (s : State) (h : s.brGet n = none) :
    s.src.term = .silent ∧ s.bitsLeft < n := by
  obtain ⟨m, hm⟩ := s.fill_spec n hn
  unfold State.brGet at h
  simp only at h
  split at h <;> try cases h
  rename_i hs
  obtain ⟨hl, hf⟩ := hm.few (by simp [hs])
  refine ⟨hm.silent hs, ?_⟩
  have := hm.count
  rw [State.bitsLeft]
  omega

/-- The results of `BR.get(n)`, by what is left of the stream. -/
theorem State.brGet_total (n : Nat) (hn : n ≤ 64) (s : State) :
    (n ≤ s.bitsLeft ∧ ∃ v t, s.brGet n = some (.value v, t))
    ∨ (s.bitsLeft < n ∧ s.src.term = .eof ∧ ∃ t, s.brGet n = some (.noData, t))
    ∨ (s.bitsLeft < n ∧ ∃ e t, s.src.term = .err e ∧ s.brGet n = some (.ioErr e, t))
    ∨ (s.bitsLeft < n ∧ s.src.term = .silent ∧ s.brGet n = none) := by
  match h : s.brGet n with
  | some (.value v, t) =>
    obtain ⟨m, hm⟩ := s.brGet_value n hn t v h
    refine .inl ⟨?_, v, t, rfl⟩
    have := hm.cnt
    have := hm.le
    rw [State.bitsLeft]; omega
  | some (.noData, t) =>
    obtain ⟨h1, h2, -⟩ := s.brGet_short n hn t _ h (by simp)
    refine .inr (.inl ⟨?_, h2 rfl, t, rfl⟩)
    have := h1.cnt
    have := h1.few
    rw [State.bitsLeft]; omega
  | some (.ioErr e, t) =>
    obtain ⟨h1, -, h2⟩ := s.brGet_short n hn t _ h (by simp)
    refine .inr (.inr (.inl ⟨?_, e, t, h2 e rfl, rfl⟩))
    have := h1.cnt
    have := h1.few
    rw [State.bitsLeft]; omega
  | none =>
    obtain ⟨h1, h2⟩ := s.brGet_none n hn h
    exact .inr (.inr (.inr ⟨h2, h1, rfl⟩))

end Sys2Proof.Machine
end

