-- ==== Sys2Proof/Laws/Decode.lean ====
section
/-! SUPPORT. The classification of a code, one lemma per row of R103, and of a command word. -/

namespace Sys2Proof

variable (ctx : DecodeCtx) (c : BitVec 16)

theorem decodeCode_clear (h : c.toNat = 256) : decodeCode ctx c = .clear := by simp [decodeCode, h]

theorem decodeCode_lit (h : c.toNat ≤ 255) : decodeCode ctx c = .lit (c.setWidth 8) := by
  have : c.toNat ≠ 256 := by omega
  simp [decodeCode, h, this]

theorem decodeCode_dict (h : 257 ≤ c.toNat) (h' : c.toNat < ctx.nextCode.toNat) : decodeCode ctx c = .dict c := by
  have h1 : c.toNat ≠ 256 := by omega
  have h2 : ¬ c.toNat ≤ 255 := by omega
  simp [decodeCode, h1, h2, h']

theorem decodeCode_kwkwk (h : 257 ≤ c.toNat) (h' : c.toNat = ctx.nextCode.toNat) (hp : ctx.prevEmpty = false) :
    decodeCode ctx c = .kwkwk c := by
  have h1 : c.toNat ≠ 256 := by omega
  have h2 : ¬ c.toNat ≤ 255 := by omega
  have h3 : ¬ c.toNat < ctx.nextCode.toNat := by omega
  simp only [decodeCode, Config.clearCode, Config.literalMax]
  rw [if_neg h1, if_neg h2, if_neg h3, if_pos ⟨h', hp⟩]

theorem decodeCode_illegal (h : 257 ≤ c.toNat)
    (h' : ctx.nextCode.toNat < c.toNat ∨ (c.toNat = ctx.nextCode.toNat ∧ ctx.prevEmpty = true)) :
    decodeCode ctx c = .illegalCode c := by
  have h1 : c.toNat ≠ 256 := by omega
  have h2 : ¬ c.toNat ≤ 255 := by omega
  have h3 : ¬ c.toNat < ctx.nextCode.toNat := by omega
  have h4 : ¬ (c.toNat = ctx.nextCode.toNat ∧ ctx.prevEmpty = false) := by
    rintro ⟨h5, h6⟩
    rcases h' with h' | h'
    · omega
    · rw [h'.2] at h6; cases h6
  simp only [decodeCode, Config.clearCode, Config.literalMax]
  rw [if_neg h1, if_neg h2, if_neg h3, if_neg h4]

/-! ### Command words, as numbers (R95 to R98, R104) -/

theorem extract_toNat {n : Nat} (w : BitVec n) (lo len : Nat) :
    (w.extractLsb' lo len).toNat = w.toNat / 2 ^ lo % 2 ^ len := by
  simp [BitVec.extractLsb'_toNat, Nat.shiftRight_eq_div_pow]

theorem eq_iff_toNat {n : Nat} (a b : BitVec n) : a = b ↔ a.toNat = b.toNat :=
  ⟨fun h => h ▸ rfl, BitVec.eq_of_toNat_eq⟩

/-- Every command word is of exactly one of these six kinds. -/
theorem decodeCmd_cases (w : BitVec 32) :
    (w.toNat = 0x10000000 ∧ decodeCmd w = .initRaw)
      ∨ (w.toNat = 0x10000001 ∧ decodeCmd w = .initHdr)
      ∨ (w.toNat / 2 ^ 24 = 0x20 ∧ w.toNat % 2 ^ 24 ≠ 0 ∧ decodeCmd w = .read (readK w))
      ∨ (w.toNat = 0x30000000 ∧ decodeCmd w = .release)
      ∨ (w.toNat = 0x40000000 ∧ decodeCmd w = .status)
      ∨ (w.toNat ≠ 0x10000000 ∧ w.toNat ≠ 0x10000001 ∧ ¬ (w.toNat / 2 ^ 24 = 0x20 ∧ w.toNat % 2 ^ 24 ≠ 0)
        ∧ w.toNat ≠ 0x30000000 ∧ w.toNat ≠ 0x40000000 ∧ decodeCmd w = .illegalCmd w) := by
  have hw := w.isLt
  unfold decodeCmd
  simp only [cmdOp, initReserved, initHdrBit, readReserved, cmdOperand, readK, eq_iff_toNat, extract_toNat,
    BitVec.toNat_ofNat, ne_eq]
  repeat' split
  all_goals first
    | exact .inl ⟨by omega, rfl⟩
    | exact .inr (.inl ⟨by omega, rfl⟩)
    | exact .inr (.inr (.inl ⟨by omega, by omega, rfl⟩))
    | exact .inr (.inr (.inr (.inl ⟨by omega, rfl⟩)))
    | exact .inr (.inr (.inr (.inr (.inl ⟨by omega, rfl⟩))))
    | exact .inr (.inr (.inr (.inr (.inr ⟨by omega, by omega, by omega, by omega, by omega, rfl⟩))))

/-- The mask of READ's row. -/
theorem and_readMask (w : BitVec 32) : (w &&& 0xFF000000#32 = 0x20000000#32) ↔ w.toNat / 2 ^ 24 = 0x20 := by
  have : w.toNat / 2 ^ 24 = 0x20 ↔ w.extractLsb' 24 8 = 0x20#8 := by
    rw [eq_iff_toNat, extract_toNat]; have := w.isLt; simp; omega
  rw [this]
  constructor
  · intro h
    have h2 := congrArg (fun v => v.extractLsb' 24 8) h
    simp only [BitVec.extractLsb'_and] at h2
    have : (0xFF000000#32).extractLsb' 24 8 = BitVec.allOnes 8 := by decide
    rw [this, BitVec.and_allOnes] at h2
    rw [h2]; decide
  · intro h
    apply BitVec.eq_of_getLsbD_eq
    intro i hi
    rw [BitVec.getLsbD_and]
    by_cases hc : i < 24
    · have h1 : ∀ j : Fin 24, (0xFF000000#32).getLsbD j = false ∧ (0x20000000#32).getLsbD j = false := by decide
      rw [(h1 ⟨i, hc⟩).1, (h1 ⟨i, hc⟩).2, Bool.and_false]
    · obtain ⟨j, rfl⟩ := Nat.exists_eq_add_of_le (Nat.le_of_not_lt hc)
      have hj : j < 8 := by omega
      have h1 : ∀ j : Fin 8, (0xFF000000#32).getLsbD (24 + j) = true
          ∧ (0x20000000#32).getLsbD (24 + j) = (0x20#8).getLsbD j := by decide
      rw [(h1 ⟨j, hj⟩).1, (h1 ⟨j, hj⟩).2, Bool.and_true, ← h]
      simp [hj]

/-- The mask of READ's operand. -/
theorem and_kMask (w : BitVec 32) : (w &&& 0x00FFFFFF#32).toNat = w.toNat % 2 ^ 24 := by
  rw [BitVec.toNat_and]
  exact Nat.and_two_pow_sub_one_eq_mod _ 24

/-- The word of a READ. -/
theorem readWord_toNat (k : BitVec 24) : (0x20000000#32 ||| k.setWidth 32).toNat = 2 ^ 29 + k.toNat := by
  have hk : k.toNat < 2 ^ 29 := by have := k.isLt; omega
  rw [BitVec.toNat_or, BitVec.toNat_setWidth, Nat.mod_eq_of_lt (by omega)]
  simpa using (Nat.two_pow_add_eq_or_of_lt hk 1).symm

end Sys2Proof
end

