-- ==== Sys2Proof/Laws/Memory.lean ====
section
/-! SUPPORT. The dictionary's laws: read after write, a write elsewhere, the canonical form, and the growth of a
dictionary whose indices are exactly 257..NEXT_CODE-1. -/

namespace Sys2Proof.Machine.Memory

open Sys2Proof

theorem dynamic_put_same (d : Memory) (c : Nat) (v : ByteSeq) : (d.put c v).dynamic c = some v := by
  induction d with
  | nil => simp [put, dynamic]
  | cons e rest ih =>
    obtain ⟨k, w⟩ := e
    simp only [put]
    split
    · simp [dynamic]
    · split
      · simp [dynamic]
      · rename_i h1 h2
        simp [dynamic, Ne.symm h2, ih]

theorem dynamic_put_other (d : Memory) (c c' : Nat) (v : ByteSeq) (h : c' ≠ c) :
    (d.put c v).dynamic c' = d.dynamic c' := by
  induction d with
  | nil => simp [put, dynamic, Ne.symm h]
  | cons e rest ih =>
    obtain ⟨k, w⟩ := e
    simp only [put]
    split
    · simp [dynamic, Ne.symm h]
    · split
      · rename_i h1 h2
        subst h2
        simp [dynamic, Ne.symm h]
      · simp [dynamic, ih]

/-- A literal reads as itself, whatever the dynamic part holds (R27). -/
@[simp] theorem read_literal (d : Memory) (b : Byte) : d.read b.toNat = some [b] := by
  have h : b.toNat ≤ 255 := by have := b.isLt; omega
  simp [read, h]

/-- The CLEAR placeholder (R27). -/
@[simp] theorem read_clear (d : Memory) : d.read 256 = some [] := by simp [read]

theorem read_dynamic (d : Memory) (c : Nat) (h : 257 ≤ c) : d.read c = d.dynamic c := by
  simp only [read, Config.literalMax, Config.clearCode]
  rw [if_neg (by omega), if_neg (by omega)]

/-- Below 257 the dynamic part is not read. -/
theorem read_base (d d' : Memory) (c : Nat) (h : c < 257) : d.read c = d'.read c := by
  simp only [read, Config.literalMax, Config.clearCode]
  split
  · rfl
  · rw [if_pos (by omega), if_pos (by omega)]

theorem read_nil (c : Nat) (h : 257 ≤ c) : read [] c = none := by
  rw [read_dynamic _ _ h]; rfl

/-- Read after write, the same index. -/
theorem read_write_same (d : Memory) (c : Nat) (v : ByteSeq) (h1 : 257 ≤ c) (h2 : c < 65536) :
    (d.write c v).read c = some v := by
  rw [read_dynamic _ _ h1]
  simp [write, h1, h2, dynamic_put_same]

/-- A write leaves every other index alone. -/
theorem read_write_other (d : Memory) (c c' : Nat) (v : ByteSeq) (h : c' ≠ c) :
    (d.write c v).read c' = d.read c' := by
  by_cases hc : 257 ≤ c'
  · rw [read_dynamic _ _ hc, read_dynamic _ _ hc]
    unfold write
    split
    · exact dynamic_put_other d c c' v h
    · rfl
  · exact read_base _ _ _ (by omega)

theorem put_keys (d : Memory) (c : Nat) (v : ByteSeq) (e : Nat × ByteSeq) (he : e ∈ d.put c v) :
    e = (c, v) ∨ e ∈ d := by
  induction d with
  | nil => simpa [put] using he
  | cons x rest ih =>
    obtain ⟨k, w⟩ := x
    simp only [put] at he
    split at he
    · simpa using he
    · split at he
      · rcases List.mem_cons.1 he with h | h
        · exact .inl h
        · exact .inr (List.mem_cons_of_mem _ h)
      · rcases List.mem_cons.1 he with h | h
        · exact .inr (by simp [h])
        · rcases ih h with h | h
          · exact .inl h
          · exact .inr (List.mem_cons_of_mem _ h)

theorem put_rising (d : Memory) (c : Nat) (v : ByteSeq) (h : (d.map Prod.fst).Pairwise (· < ·)) :
    ((d.put c v).map Prod.fst).Pairwise (· < ·) := by
  induction d with
  | nil => simp [put]
  | cons x rest ih =>
    obtain ⟨k, w⟩ := x
    simp only [List.map_cons, List.pairwise_cons] at h
    simp only [put]
    split
    · rename_i hck
      simp only [List.map_cons, List.pairwise_cons]
      refine ⟨fun a ha => ?_, h⟩
      rcases List.mem_cons.1 ha with rfl | ha
      · exact hck
      · exact Nat.lt_trans hck (h.1 a ha)
    · split
      · rename_i _ hck
        subst hck
        simpa [List.pairwise_cons] using h
      · rename_i h1 h2
        simp only [List.map_cons, List.pairwise_cons]
        refine ⟨fun a ha => ?_, ih h.2⟩
        obtain ⟨e, he, rfl⟩ := List.mem_map.1 ha
        rcases put_keys rest c v e he with rfl | he
        · show k < c; omega
        · exact h.1 _ (List.mem_map.2 ⟨e, he, rfl⟩)

/-- Every write keeps the canonical form. -/
theorem write_wf (d : Memory) (c : Nat) (v : ByteSeq) (h : wf d) : wf (d.write c v) := by
  unfold write
  split
  · rename_i hc
    refine ⟨put_rising d c v h.1, fun e he => ?_⟩
    rcases put_keys d c v e he with rfl | he
    · exact hc
    · exact h.2 e he
  · exact h

/-- The empty dynamic part, which reset and every dictionary reset leave, is canonical. -/
theorem nil_wf : wf [] := ⟨by simp, by simp⟩

/-- Writing above every index appends. -/
theorem put_append (d : Memory) (c : Nat) (v : ByteSeq) (h : ∀ e ∈ d, e.1 < c) : d.put c v = d ++ [(c, v)] := by
  induction d with
  | nil => rfl
  | cons x rest ih =>
    obtain ⟨k, w⟩ := x
    have hk : k < c := h (k, w) (by simp)
    simp only [put, List.cons_append]
    rw [if_neg (by omega), if_neg (by omega), ih (fun e he => h e (by simp [he]))]

/-- An index is an entry exactly when it is listed. -/
theorem dynamic_isSome (d : Memory) (c : Nat) : (d.dynamic c).isSome = true ↔ c ∈ d.map Prod.fst := by
  induction d with
  | nil => simp [dynamic]
  | cons x rest ih =>
    obtain ⟨k, w⟩ := x
    by_cases h : k = c
    · simp [dynamic, h]
    · simp [dynamic, h, ih, Ne.symm h]

theorem dynamic_mem (d : Memory) (c : Nat) (v : ByteSeq) (h : d.dynamic c = some v) : (c, v) ∈ d := by
  induction d with
  | nil => simp [dynamic] at h
  | cons x rest ih =>
    obtain ⟨k, w⟩ := x
    by_cases hk : k = c
    · simp [dynamic, hk] at h; simp [hk, h]
    · simp [dynamic, hk] at h; exact List.mem_cons_of_mem _ (ih h)

theorem mem_dynamic (d : Memory) (c : Nat) (v : ByteSeq) (hw : (d.map Prod.fst).Pairwise (· < ·))
    (h : (c, v) ∈ d) : d.dynamic c = some v := by
  induction d with
  | nil => simp at h
  | cons x rest ih =>
    obtain ⟨k, w⟩ := x
    simp only [List.map_cons, List.pairwise_cons] at hw
    rcases List.mem_cons.1 h with h | h
    · cases h; simp [dynamic]
    · have hk : k < c := hw.1 c (List.mem_map.2 ⟨_, h, rfl⟩)
      simp only [dynamic]
      rw [if_neg (by omega)]
      exact ih hw.2 h

end Sys2Proof.Machine.Memory
end

