-- ==== Sys2Proof/Laws/Decoder.lean ====
section
/-! SUPPORT. What the insertion, a code instruction and a decode step can do, said once. -/

namespace Sys2Proof.Machine

open Sys2Proof

/-! ### Insertion and the tail of a step (R149 to R152) -/

theorem State.insert_kept (b : Byte) (s : State) (h : s.prev = [] ∨ 65536 ≤ s.nextCode.toNat) : s.insert b = s := by
  unfold State.insert
  rw [if_neg]
  rintro ⟨h1, h2⟩
  rcases h with h | h
  · exact h1 h
  · simp only [Config.dictCapacity] at h2; omega

/-- NEXT_CODE, the dictionary and the width after an insertion that happened. -/
theorem State.insert_grown (b : Byte) (s : State) (hp : s.prev ≠ []) (hn : s.nextCode.toNat < 65536) :
    (s.insert b).nextCode.toNat = s.nextCode.toNat + 1
      ∧ (s.insert b).dict = s.dict.write s.nextCode.toNat (s.prev ++ [b])
      ∧ (s.insert b).codeSize.toNat =
          if s.nextCode.toNat + 1 = 2 ^ s.codeSize.toNat ∧ s.codeSize.toNat < 16 then s.codeSize.toNat + 1
          else s.codeSize.toNat := by
  have h1 : (s.nextCode + 1#17).toNat = s.nextCode.toNat + 1 := by
    rw [BitVec.toNat_add]; exact Nat.mod_eq_of_lt (by simp; omega)
  unfold State.insert
  rw [if_pos ⟨hp, hn⟩]
  refine ⟨by simp only [State.growWidth_nextCode, h1], by simp only [State.growWidth_dict], ?_⟩
  unfold State.growWidth
  simp only [h1, Config.maxCodeSize]
  split
  · rename_i hc
    show (s.codeSize + 1#5).toNat = _
    rw [BitVec.toNat_add]; exact Nat.mod_eq_of_lt (by simp; omega)
  · rfl

/-- A resolved code does what R149 to R152 say, and nothing else. -/
theorem State.accept_resolved (b : Byte) (r : ByteSeq) (s : State) (hl : 257 ≤ s.nextCode.toNat) :
    Resolved s (s.accept b r) (b :: r) := by
  refine ⟨by simp, by simp, fun h => ?_, fun hp hn => ?_, by constructor <;> simp⟩
  · have : s.insert b = s := s.insert_kept b (by rcases h with h | h; exact .inl h; exact .inr (by omega))
    simp [this]
  · obtain ⟨h1, h2, h3⟩ := s.insert_grown b hp hn
    refine ⟨by simpa using h1, ?_, fun c hc => ?_, by simpa using h3⟩
    · rw [State.accept_dict, h2]
      simpa using Memory.read_write_same _ _ _ hl hn
    · rw [State.accept_dict, h2]
      exact Memory.read_write_other _ _ _ _ hc

/-! ### The code instructions -/

/-- What a code instruction that answers a next state did (R144 to R148). -/
inductive CodeStep (s : State) : Instr → State → Prop where
  | clear (hr : s.st = .ready) : CodeStep s .clear s.resetDict
  | resolved (i : Instr) (hi : i.resolves = true) (hr : s.st = .ready) (first : Byte) (rest : ByteSeq)
      (hs : (∃ c, c < s.nextCode.toNat ∧ c ≠ 256 ∧ s.dict.read c = some (first :: rest))
        ∨ (∃ b, i = .lit b ∧ first = b ∧ rest = [])
        ∨ (∃ tail, s.prev = first :: tail ∧ rest = tail ++ [first] ∧ s.nextCode.toNat < 65536)) :
      CodeStep s i (s.accept first rest)
  | illegal (code : BitVec 16) (hr : s.st = .ready) :
      CodeStep s (.illegalCode code) (s.raise .data (code.setWidth 24))

/-- A literal always resolves, to its byte (R144). -/
theorem execLit_ready (b : Byte) (s : State) (hr : s.st = .ready) : execLit b s = .next (s.accept b []) := by
  simp [execLit, whenReady, hr]

theorem runCode_next (i : Instr) (s t : State) (h : runCode i s = .next t) : CodeStep s i t := by
  cases i with
  | clear =>
    simp only [runCode, execClear, whenReady] at h
    split at h
    · rename_i hr; cases h; exact .clear hr
    · cases h
  | lit b =>
    by_cases hr : s.st = .ready
    · rw [runCode, execLit_ready b s hr] at h
      cases h
      exact .resolved _ rfl hr b [] (.inr (.inl ⟨b, rfl, rfl, rfl⟩))
    · simp [runCode, execLit, whenReady, hr] at h
  | dict code =>
    simp only [runCode, execDict, whenReady] at h
    split at h
    · rename_i hr
      split at h
      · rename_i hc
        simp only [Config.firstCode] at hc
        split at h
        · rename_i first rest hd
          cases h
          exact .resolved _ rfl hr first rest (.inl ⟨code.toNat, hc.2, by omega, hd⟩)
        · cases h
        · cases h
      · cases h
    · cases h
  | kwkwk code =>
    simp only [runCode, execKwkwk, whenReady] at h
    split at h
    · rename_i hr
      split at h
      · rename_i hc
        split at h
        · rename_i first tail hp
          cases h
          exact .resolved _ rfl hr first _ (.inr (.inr ⟨tail, hp, rfl, by have := code.isLt; omega⟩))
        · cases h
      · cases h
    · cases h
  | illegalCode code =>
    simp only [runCode, execIllegalCode, whenReady] at h
    split at h
    · rename_i hr
      split at h
      · cases h; exact .illegal code hr
      · cases h
    · cases h
  | initRaw => cases h
  | initHdr => cases h
  | read k => cases h
  | release => cases h
  | status => cases h
  | illegalCmd w => cases h
  | brGet n => cases h
  | brGetRefused n => cases h
  | srcPull => cases h

/-- `exec` of a code instruction is its class rule. -/
theorem exec_code (i : Instr) (hi : i.isCode = true) (s : State) : exec i s = runCode i s := by
  cases i <;> first | rfl | cases hi

theorem decodeCode_isCode (ctx : DecodeCtx) (c : BitVec 16) : (decodeCode ctx c).isCode = true := by
  unfold decodeCode
  repeat' split
  all_goals rfl

/-! ### The decode step (R141) -/

/-- What a decode step that answers a next state did. -/
inductive Advance (s : State) : State → Prop where
  /-- A code was fetched (R142) and executed. -/
  | code (v : BitVec 64) (m : Nat) (u t : State) (hr : s.st = .ready) (hv : BrValue s.codeSize.toNat s u v m)
      (ht : CodeStep u (decodeCode u.ctx (v.setWidth 16)) t) : Advance s t
  /-- No data: the clean end. -/
  | ended (u : State) (hr : s.st = .ready) (hu : BrShort s.codeSize.toNat s u) : Advance s { u with st := .eos }
  /-- The source failed (R214). -/
  | failed (e : BitVec 24) (u : State) (hr : s.st = .ready) (hu : BrShort s.codeSize.toNat s u)
      (he : s.src.term = .err e) : Advance s (u.raise .io e)

theorem codeSize_le (s : State) : s.codeSize.toNat ≤ 64 := by
  have := s.codeSize.isLt; omega

/-- The code fetch of a decode step, by cases (R142). -/
theorem State.fetchCode_cases (s : State) :
    (∃ v u m, s.st = .ready ∧ s.brGet s.codeSize.toNat = some (.value v, u) ∧ BrValue s.codeSize.toNat s u v m
        ∧ s.fetchCode = .code (decodeCode u.ctx (v.setWidth 16)) u)
      ∨ (∃ u, s.st = .ready ∧ BrShort s.codeSize.toNat s u ∧ s.src.term = .eof
        ∧ s.fetchCode = .stop (.next { u with st := .eos }))
      ∨ (∃ e u, s.st = .ready ∧ BrShort s.codeSize.toNat s u ∧ s.src.term = .err e
        ∧ s.fetchCode = .stop (.next (u.raise .io e)))
      ∨ (s.src.term = .silent ∧ s.bitsLeft < s.codeSize.toNat ∧ s.fetchCode = .stop (.fault .sourceSilent))
      ∨ (s.st ≠ .ready ∧ s.fetchCode = .stop (.refused .notReady)) := by
  by_cases hr : s.st = .ready
  · unfold State.fetchCode
    rw [if_pos hr]
    match hb : s.brGet s.codeSize.toNat with
    | some (.value v, u) =>
      obtain ⟨m, hm⟩ := s.brGet_value _ (codeSize_le s) u v hb
      exact .inl ⟨v, u, m, hr, rfl, hm, rfl⟩
    | some (.noData, u) =>
      obtain ⟨h1, h2, -⟩ := s.brGet_short _ (codeSize_le s) u _ hb (by simp)
      exact .inr (.inl ⟨u, hr, h1, h2 rfl, rfl⟩)
    | some (.ioErr e, u) =>
      obtain ⟨h1, -, h2⟩ := s.brGet_short _ (codeSize_le s) u _ hb (by simp)
      exact .inr (.inr (.inl ⟨e, u, hr, h1, h2 e rfl, rfl⟩))
    | none =>
      obtain ⟨h1, h2⟩ := s.brGet_none _ (codeSize_le s) hb
      exact .inr (.inr (.inr (.inl ⟨h1, h2, rfl⟩)))
  · exact .inr (.inr (.inr (.inr ⟨hr, by rw [State.fetchCode, if_neg hr]⟩)))

theorem advance_next (s t : State) (h : advance s = .next t) : Advance s t := by
  unfold advance at h
  rcases s.fetchCode_cases with ⟨v, u, m, hr, -, hm, hf⟩ | ⟨u, hr, hu, -, hf⟩ | ⟨e, u, hr, hu, he, hf⟩ | ⟨-, -, hf⟩ | ⟨-, hf⟩
  · rw [hf] at h; exact .code v m u t hr hm (runCode_next _ _ _ h)
  · rw [hf] at h; cases h; exact .ended u hr hu
  · rw [hf] at h; cases h; exact .failed e u hr hu he
  · rw [hf] at h; cases h
  · rw [hf] at h; cases h

end Sys2Proof.Machine
end

