-- ==== Sys2Proof/Laws/ReadLoop.lean ====
section
/-! SUPPORT. The loop of READ never runs out of fuel: `readLoop` with `readFuel` is the unbounded loop of R185. -/

namespace Sys2Proof.Machine

open Sys2Proof

/-- What a round of the loop makes smaller: bytes still wanted plus bits still unread. -/
def State.work (k : Nat) (s : State) : Nat := (k - s.outQ.length) + s.bitsLeft

theorem BrValue.bitsLeft {n : Nat} {s u : State} {v : BitVec 64} {m : Nat} (h : BrValue n s u v m) :
    u.bitsLeft + n = s.bitsLeft := by
  have h1 := h.cnt
  have h2 := h.le
  have h3 : u.src.bytes.length = s.src.bytes.length - m := by rw [h.bytes, List.length_drop]
  unfold State.bitsLeft
  omega

/-- A code instruction takes no stream bits and never shortens OUTQ. -/
theorem CodeStep.frame {s t : State} {i : Instr} (h : CodeStep s i t) :
    t.bitsLeft = s.bitsLeft ∧ t.src = s.src ∧ t.inbox = s.inbox ∧ t.outbox = s.outbox
      ∧ t.bitBuf = s.bitBuf ∧ t.bitCnt = s.bitCnt ∧ s.st = .ready ∧ (t.st = .ready ∨ t.st = .fault) := by
  cases h with
  | clear hr => simp [State.bitsLeft, hr]
  | resolved i hi hr first rest hs => simp [State.bitsLeft, hr]
  | illegal code hr => simp [State.bitsLeft, hr]

/-- Every round makes progress, or closes the stream. -/
theorem Advance.progress {s t : State} {k : Nat} (hk : s.outQ.length < k) (h : Advance s t) :
    t.st ≠ .ready ∨ t.work k < s.work k := by
  cases h with
  | ended u hr hu => left; simp
  | failed e u hr hu he => left; simp
  | code v m u t hr hv ht =>
    have hb := hv.bitsLeft
    have hf := ht.frame.1
    have hq : u.outQ = s.outQ := hv.keeps.outQ
    generalize hi : decodeCode u.ctx (v.setWidth 16) = i at ht
    cases ht with
    | illegal code hr' => left; simp
    | clear hr' =>
      right
      have hn : 0 < s.codeSize.toNat := by
        by_contra h0
        have h0 : s.codeSize.toNat = 0 := by omega
        have hv0 := hv.bound
        rw [h0] at hv0
        have : v = 0#64 := BitVec.eq_of_toNat_eq (by simp; omega)
        rw [this] at hi
        simp [decodeCode] at hi
      simp only [State.work, hf, State.resetDict_outQ, hq]
      omega
    | resolved i hi' hr' first rest hs =>
      right
      simp only [State.work, hf, State.accept_outQ, hq, List.length_append, List.length_cons]
      omega

/-- With more fuel than work, the loop is the unbounded one (R185). -/
theorem readLoop_iff_run (k : Nat) :
    ∀ (fuel : Nat) (s : State), s.work k < fuel → ∀ t, readLoop fuel k s = .next t ↔ ReadRun k s t := by
  intro fuel
  induction fuel with
  | zero => intro s hf; omega
  | succ fuel ih =>
    intro s hf t
    by_cases hc : s.outQ.length < k ∧ s.st = .ready
    · rw [readLoop, if_pos hc]
      match ha : advance s with
      | .next u =>
        have run : readLoop fuel k u = .next t ↔ ReadRun k u t := by
          rcases (advance_next s u ha).progress hc.1 with h | h
          · match fuel with
            | 0 =>
              rw [readLoop]
              constructor
              · intro h'; cases h'; exact .stop _ (fun h'' => h h''.2)
              · intro h'
                cases h' with
                | stop _ _ => rfl
                | more _ _ _ _ hr _ _ => exact absurd hr h
            | f + 1 =>
              rw [readLoop, if_neg (fun h'' => h h''.2)]
              constructor
              · intro h'; cases h'; exact .stop _ (fun h'' => h h''.2)
              · intro h'
                cases h' with
                | stop _ _ => rfl
                | more _ _ _ _ hr _ _ => exact absurd hr h
          · exact ih u (by omega) t
        constructor
        · intro h; exact .more s u t hc.1 hc.2 ha (run.1 h)
        · intro h
          cases h with
          | stop _ hn => exact absurd hc hn
          | more _ u' _ _ _ ha' hrest =>
            rw [ha] at ha'; cases ha'; exact run.2 hrest
      | .fault r =>
        constructor
        · intro h; cases h
        · intro h
          cases h with
          | stop _ hn => exact absurd hc hn
          | more _ u' _ _ _ ha' _ => rw [ha] at ha'; cases ha'
      | .refused r =>
        constructor
        · intro h; cases h
        · intro h
          cases h with
          | stop _ hn => exact absurd hc hn
          | more _ u' _ _ _ ha' _ => rw [ha] at ha'; cases ha'
    · rw [readLoop, if_neg hc]
      constructor
      · intro h; cases h; exact .stop _ hc
      · intro h
        cases h with
        | stop _ _ => rfl
        | more _ _ _ hk hr _ _ => exact absurd ⟨hk, hr⟩ hc

theorem State.work_lt_fuel (k : Nat) (s : State) : s.work k < s.readFuel k := by
  unfold State.work State.readFuel; omega

/-- The loop as READ runs it. -/
theorem readLoop_fuel (k : Nat) (s t : State) : readLoop (s.readFuel k) k s = .next t ↔ ReadRun k s t :=
  readLoop_iff_run k _ s (s.work_lt_fuel k) t

/-- An induction over the states the loop passes: what holds at its start and is kept by every decode step taken with
fewer than `k` bytes queued holds at its end. -/
theorem ReadRun.induct {k : Nat} {P : State → Prop} {s t : State} (h : ReadRun k s t) (hs : P s)
    (keep : ∀ a b, P a → a.outQ.length < k → a.st = .ready → Advance a b → P b) : P t := by
  induction h with
  | stop s _ => exact hs
  | more s u t hk hr ha _ ih => exact ih (keep s u hs hk hr (advance_next s u ha))

/-- The loop ends with enough bytes or a closed stream. -/
theorem ReadRun.done {k : Nat} {s t : State} (h : ReadRun k s t) : ¬ (t.outQ.length < k ∧ t.st = .ready) := by
  induction h with
  | stop s h => exact h
  | more s u t _ _ _ _ ih => exact ih

/-- The loop has one end. -/
theorem ReadRun.det {k : Nat} {s t t' : State} (h : ReadRun k s t) (h' : ReadRun k s t') : t = t' := by
  induction h with
  | stop s hs =>
    cases h' with
    | stop _ _ => rfl
    | more _ _ _ hk hr _ _ => exact absurd ⟨hk, hr⟩ hs
  | more s u t hk hr ha _ ih =>
    cases h' with
    | stop _ hs => exact absurd ⟨hk, hr⟩ hs
    | more _ u' _ _ _ ha' rest => rw [ha] at ha'; cases ha'; exact ih rest

end Sys2Proof.Machine
end

