-- ==== Sys2Proof/Laws/Invariant.lean ====
section
/-! SUPPORT. The shared operations keep `State.Inv`. -/

namespace Sys2Proof.Machine

open Sys2Proof

/-! ### Entries under the invariant -/

namespace State.Inv

variable {s t : State}

theorem rising (h : s.Inv) : (s.dict.map Prod.fst).Pairwise (· < ·) := by
  rw [h.entries]; exact List.pairwise_lt_range'

theorem memory_wf (h : s.Inv) : s.dict.wf := by
  refine ⟨h.rising, fun e he => ?_⟩
  have : e.1 ∈ s.dict.map Prod.fst := List.mem_map.2 ⟨e, he, rfl⟩
  rw [h.entries, List.mem_range'_1] at this
  have := h.nextHigh
  omega

/-- R153 item 1: the entries are exactly the indices below NEXT_CODE. -/
theorem read_isSome (h : s.Inv) (c : Nat) : (s.dict.read c).isSome = true ↔ c < s.nextCode.toNat := by
  have hl := h.nextLow
  by_cases hc : 257 ≤ c
  · rw [Memory.read_dynamic _ _ hc, Memory.dynamic_isSome, h.entries, List.mem_range'_1]
    omega
  · have : (s.dict.read c).isSome = true := by
      simp only [Memory.read, Config.literalMax, Config.clearCode]
      split
      · rfl
      · rw [if_pos (by omega)]; rfl
    simp only [this, true_iff]; omega

/-- R153 item 3: an entry other than the placeholder is non-empty. -/
theorem read_ne_nil (h : s.Inv) (c : Nat) (seq : ByteSeq) (hc : c ≠ 256) (hr : s.dict.read c = some seq) :
    seq ≠ [] := by
  by_cases h1 : 257 ≤ c
  · rw [Memory.read_dynamic _ _ h1] at hr
    exact (h.grown _ (Memory.dynamic_mem _ _ _ hr)).1
  · simp only [Memory.read, Config.literalMax] at hr
    rw [if_pos (by omega)] at hr
    cases hr; simp

/-- The invariant reads no agent's field and not OUTQ. -/
theorem congr (h : s.Inv) (hst : t.st = s.st) (herr : t.err = s.err) (hinfo : t.errInfo = s.errInfo)
    (hcs : t.codeSize = s.codeSize) (hnc : t.nextCode = s.nextCode) (hd : t.dict = s.dict) (hp : t.prev = s.prev)
    (hb : t.bitBuf = s.bitBuf) (hc : t.bitCnt = s.bitCnt) : t.Inv := by
  obtain ⟨h1, h2, h3, h4, h5, h6, h7, h8, h9, h10, h11⟩ := h
  exact ⟨by rw [hd, hnc]; exact h1, by rw [hnc]; exact h2, by rw [hnc]; exact h3, by rw [hcs, hnc]; exact h4,
    by rw [hd]; exact h5, by rw [hp, hnc]; exact h6, by rw [hp, hnc, hd]; exact h7, by rw [hb, hc]; exact h8,
    by rw [hc]; exact h9, by rw [hst, herr, hinfo]; exact h10, by rw [hst, herr]; exact h11⟩

theorem answer (h : s.Inv) (r : Response) : (s.answer r).Inv :=
  h.congr rfl rfl rfl rfl rfl rfl rfl rfl rfl

/-- The base dictionary meets the invariant, with any legal phase and error record and any canonical BITQ. -/
theorem base (hcs : s.codeSize = 9#5) (hnc : s.nextCode = 257#17) (hd : s.dict = []) (hp : s.prev = [])
    (hb : s.bitBuf.toNat < 2 ^ s.bitCnt.toNat) (hc : s.bitCnt.toNat ≤ 71)
    (h1 : s.st ≠ .fault → s.err = .none ∧ s.errInfo = 0#24) (h2 : s.st = .fault → s.err ≠ .none) : s.Inv := by
  refine ⟨?_, ?_, ?_, ?_, ?_, ?_, ?_, hb, hc, h1, h2⟩ <;> simp [hcs, hnc, hd, hp]
  decide

theorem resetDict (h : s.Inv) : s.resetDict.Inv :=
  base rfl rfl rfl rfl h.bitsHigh h.bitsMax h.noErr h.someErr

theorem raise (h : s.Inv) (k : ErrKind) (info : BitVec 24) (hk : k ≠ .none) : (s.raise k info).Inv := by
  obtain ⟨h1, h2, h3, h4, h5, h6, h7, h8, h9, -, -⟩ := h
  exact ⟨h1, h2, h3, h4, h5, h6, h7, h8, h9, fun hf => absurd rfl hf, fun _ => hk⟩

/-- The end of the stream. -/
theorem ended (h : s.Inv) (hs : s.st = .ready) : ({ s with st := .eos } : State).Inv := by
  obtain ⟨h1, h2, h3, h4, h5, h6, h7, h8, h9, h10, -⟩ := h
  exact ⟨h1, h2, h3, h4, h5, h6, h7, h8, h9, fun _ => h10 (by simp [hs]), fun hf => by cases hf⟩

/-- Whatever `BR.get` did to BITQ, canonically. -/
theorem bits (h : s.Inv) (hk : BrKeeps s t) (hb : t.bitBuf.toNat < 2 ^ t.bitCnt.toNat) (hc : t.bitCnt.toNat ≤ 71) :
    t.Inv := by
  have hu : ({ s with bitBuf := t.bitBuf, bitCnt := t.bitCnt } : State).Inv := by
    obtain ⟨h1, h2, h3, h4, h5, h6, h7, -, -, h10, h11⟩ := h
    exact ⟨h1, h2, h3, h4, h5, h6, h7, hb, hc, h10, h11⟩
  exact hu.congr hk.st hk.err hk.errInfo hk.codeSize hk.nextCode hk.dict hk.prev rfl rfl

end State.Inv

/-! ### The width rule (R108) -/

theorem bitlen_eq_iff (x n : Nat) (hx : x ≠ 0) : bitlen x = n + 1 ↔ 2 ^ n ≤ x ∧ x < 2 ^ (n + 1) := by
  unfold bitlen
  rw [Nat.add_right_cancel_iff]
  exact Nat.log2_eq_iff hx

/-- One more entry moves `min 16 (bitlen NEXT_CODE)` exactly as R150 moves CODESIZE. -/
theorem width_succ (n : Nat) (h1 : 257 ≤ n) (h2 : n < 65536) :
    min 16 (bitlen (n + 1)) =
      if n + 1 = 2 ^ min 16 (bitlen n) ∧ min 16 (bitlen n) < 16 then min 16 (bitlen n) + 1 else min 16 (bitlen n) := by
  obtain ⟨k, hk⟩ : ∃ k, bitlen n = k + 1 := ⟨Nat.log2 n, rfl⟩
  obtain ⟨ha, hb⟩ := (bitlen_eq_iff n k (by omega)).1 hk
  have hk16 : k < 16 := by
    by_contra hc
    have : 2 ^ 16 ≤ 2 ^ k := Nat.pow_le_pow_right (by omega) (by omega)
    omega
  rw [hk, Nat.min_eq_right (by omega : k + 1 ≤ 16)]
  by_cases he : n + 1 = 2 ^ (k + 1)
  · have : bitlen (n + 1) = k + 1 + 1 :=
      (bitlen_eq_iff _ _ (by omega)).2 ⟨by omega, by rw [he]; exact Nat.pow_lt_pow_right (by omega) (by omega)⟩
    rw [this]
    split
    · omega
    · rename_i hc
      have : ¬ (k + 1 < 16) := fun h => hc ⟨he, h⟩
      omega
  · have : bitlen (n + 1) = k + 1 := (bitlen_eq_iff _ _ (by omega)).2 ⟨by omega, by omega⟩
    rw [this, if_neg (fun h => he h.1)]
    omega

/-! ### The tail of a decode step keeps the invariant -/

/-- What a code may resolve to: an entry other than the placeholder, or PREV with its own first byte appended. -/
def Resolvable (s : State) (seq : ByteSeq) : Prop :=
  (∃ c, c < s.nextCode.toNat ∧ c ≠ 256 ∧ s.dict.read c = some seq)
    ∨ (∃ x tail, s.prev = x :: tail ∧ seq = s.prev ++ [x] ∧ s.nextCode.toNat < 65536)

theorem State.Inv.accept {s : State} (h : s.Inv) (b : Byte) (r : ByteSeq) (hs : Resolvable s (b :: r)) :
    (s.accept b r).Inv := by
  have hl := h.nextLow
  have hh := h.nextHigh
  by_cases hg : s.prev ≠ [] ∧ s.nextCode.toNat < 65536
  · obtain ⟨hp, hn⟩ := hg
    obtain ⟨g1, g2, g3⟩ := s.insert_grown b hp hn
    have hd : (s.accept b r).dict = s.dict ++ [(s.nextCode.toNat, s.prev ++ [b])] := by
      rw [State.accept_dict, g2, Memory.write, if_pos ⟨hl, hn⟩]
      refine Memory.put_append _ _ _ (fun e he => ?_)
      have : e.1 ∈ s.dict.map Prod.fst := List.mem_map.2 ⟨e, he, rfl⟩
      rw [h.entries, List.mem_range'_1] at this
      omega
    have hread : ∀ c, c ≠ s.nextCode.toNat → (s.accept b r).dict.read c = s.dict.read c := by
      intro c hc
      rw [State.accept_dict, g2]
      exact Memory.read_write_other _ _ _ _ hc
    have hnew : (s.accept b r).dict.read s.nextCode.toNat = some (s.prev ++ [b]) := by
      rw [State.accept_dict, g2]
      exact Memory.read_write_same _ _ _ hl hn
    have hnc : (s.accept b r).nextCode.toNat = s.nextCode.toNat + 1 := by rw [State.accept_nextCode, g1]
    refine ⟨?_, by omega, by omega, ?_, ?_, ?_, ?_, ?_, ?_, ?_, ?_⟩
    · rw [hd, hnc, List.map_append, h.entries]
      have : s.nextCode.toNat + 1 - 257 = (s.nextCode.toNat - 257) + 1 := by omega
      rw [this, List.range'_concat]
      simp; omega
    · rw [hnc, State.accept_codeSize, g3, width_succ _ hl hn, h.width]
    · intro e he
      rw [hd, List.mem_append, List.mem_singleton] at he
      rcases he with he | rfl
      · obtain ⟨h1, p, hp1, hp2, hp3⟩ := h.grown e he
        have hp4 : p < s.nextCode.toNat := (h.read_isSome p).1 (by rw [hp3]; rfl)
        exact ⟨h1, p, hp1, hp2, by rw [hread p (by omega)]; exact hp3⟩
      · obtain ⟨p, hp1, hp2, hp3⟩ := h.prev hp
        refine ⟨by simp, p, hp1, hp2, ?_⟩
        rw [hread p (by omega), List.dropLast_concat]
        exact hp3
    · intro hc; simp at hc
    · intro _
      rw [State.accept_prev]
      rcases hs with ⟨c, hc1, hc2, hc3⟩ | ⟨x, tail, hx1, hx2, -⟩
      · exact ⟨c, by omega, hc2, by rw [hread c (by omega)]; exact hc3⟩
      · refine ⟨s.nextCode.toNat, by omega, by omega, ?_⟩
        have hb : b = x := by rw [hx1] at hx2; simp at hx2; exact hx2.1
        rw [hnew, hx2, hb]
    · simpa using h.bitsHigh
    · simpa using h.bitsMax
    · simpa using h.noErr
    · simpa using h.someErr
  · have hi : s.insert b = s := s.insert_kept b (by
      by_cases hp : s.prev = []
      · exact .inl hp
      · exact .inr (Nat.le_of_not_lt (fun hn => hg ⟨hp, hn⟩)))
    obtain ⟨h1, h2, h3, h4, h5, h6, h7, h8, h9, h10, h11⟩ := h
    refine ⟨?_, ?_, ?_, ?_, ?_, ?_, ?_, ?_, ?_, ?_, ?_⟩ <;> simp only [State.accept_dict, State.accept_nextCode,
      State.accept_codeSize, State.accept_prev, State.accept_bitBuf, State.accept_bitCnt, State.accept_st,
      State.accept_err, State.accept_errInfo, hi]
    · exact h1
    · exact h2
    · exact h3
    · exact h4
    · exact h5
    · intro hc; cases hc
    · intro _
      rcases hs with hc | ⟨x, tail, hx1, -, hx3⟩
      · exact hc
      · exact absurd ⟨by rw [hx1]; simp, hx3⟩ hg
    · exact h8
    · exact h9
    · exact h10
    · exact h11

theorem CodeStep.keeps_inv {s t : State} {i : Instr} (h : CodeStep s i t) (hi : s.Inv) : t.Inv := by
  cases h with
  | clear hr => exact hi.resetDict
  | resolved i _ hr first rest hs =>
    refine hi.accept first rest ?_
    rcases hs with hc | ⟨b, -, rfl, rfl⟩ | ⟨tail, h1, rfl, h3⟩
    · exact .inl hc
    · have := hi.nextLow
      exact .inl ⟨first.toNat, by have := first.isLt; omega, by have := first.isLt; omega, by simp⟩
    · exact .inr ⟨first, tail, h1, by rw [h1]; rfl, h3⟩
  | illegal code hr => exact hi.raise _ _ (by simp)

theorem BrValue.keeps_inv {n : Nat} {s u : State} {v : BitVec 64} {m : Nat} (h : BrValue n s u v m) (hi : s.Inv) :
    u.Inv := by
  refine hi.bits h.keeps (h.bits hi.bitsHigh).1 ?_
  have hc := h.cnt
  have hm := hi.bitsMax
  rcases h.small with h0 | h0
  · subst h0; omega
  · omega

theorem BrShort.keeps_inv {n : Nat} {s u : State} (h : BrShort n s u) (hn : n ≤ 64) (hi : s.Inv) : u.Inv :=
  hi.bits h.keeps (h.bits hi.bitsHigh).1 (by have := h.few; omega)

theorem Advance.keeps_inv {s t : State} (h : Advance s t) (hi : s.Inv) : t.Inv := by
  cases h with
  | code v m u t hr hv ht => exact ht.keeps_inv (hv.keeps_inv hi)
  | ended u hr hu => exact (hu.keeps_inv (codeSize_le s) hi).ended (by rw [hu.keeps.st, hr])
  | failed e u hr hu he => exact (hu.keeps_inv (codeSize_le s) hi).raise _ _ (by simp)

theorem ReadRun.keeps_inv {k : Nat} {s t : State} (h : ReadRun k s t) (hi : s.Inv) : t.Inv :=
  h.induct hi (fun _ _ ha _ _ hadv => hadv.keeps_inv ha)

end Sys2Proof.Machine
end

