-- ==== Sys2Proof/Laws/HostCommands.lean ====
section
/-! SUPPORT. What a decode step under the invariant, the READ loop and the host commands can do, said once. -/

namespace Sys2Proof.Machine

open Sys2Proof

/-! ### Response words (R99) -/

theorem respRc_resp32 (rc : BitVec 4) (c : BitVec 24) : respRc (resp32 rc c) = rc := by
  apply BitVec.eq_of_getLsbD_eq
  intro i hi
  have h1 : i < 32 := by omega
  simp [respRc, resp32, hi, h1]

theorem respCount_resp32 (rc : BitVec 4) (c : BitVec 24) : respCount (resp32 rc c) = c := by
  apply BitVec.eq_of_getLsbD_eq
  intro i hi
  have h1 : 4 + i < 32 := by omega
  simp [respCount, resp32, hi, h1]

theorem reserved_resp32 (rc : BitVec 4) (c : BitVec 24) : (resp32 rc c).extractLsb' 28 4 = 0#4 := by
  apply BitVec.eq_of_getLsbD_eq
  intro i hi
  have h1 : 28 + i < 32 := by omega
  simpa [resp32, hi, h1] using
    And.intro (BitVec.getLsbD_of_ge rc _ (by omega)) (fun _ : 4 ≤ 28 + i => BitVec.getLsbD_of_ge c (28 + i - 4) (by omega))

/-! ### A decode step under the invariant -/

/-- A classified code in READY always completes under the invariant (R144 to R148). -/
theorem runCode_completes (s : State) (hi : s.Inv) (hr : s.st = .ready) (code : BitVec 16) :
    ∃ t, runCode (decodeCode s.ctx code) s = .next t := by
  have hl := hi.nextLow
  by_cases h1 : code.toNat = 256
  · exact ⟨s.resetDict, by rw [decodeCode_clear _ _ h1]; simp [runCode, execClear, whenReady, hr]⟩
  by_cases h2 : code.toNat ≤ 255
  · exact ⟨_, by rw [decodeCode_lit _ _ h2]; exact execLit_ready _ s hr⟩
  have h257 : 257 ≤ code.toNat := by omega
  by_cases h3 : code.toNat < s.nextCode.toNat
  · rw [decodeCode_dict _ _ h257 h3]
    obtain ⟨seq, hseq⟩ := Option.isSome_iff_exists.1 ((hi.read_isSome code.toNat).2 h3)
    match seq, hseq with
    | [], hseq => exact absurd rfl (hi.read_ne_nil _ _ h1 hseq)
    | x :: xs, hseq => exact ⟨s.accept x xs, by simp [runCode, execDict, whenReady, hr, h257, h3, hseq]⟩
  by_cases h4 : code.toNat = s.nextCode.toNat ∧ s.prev ≠ []
  · rw [decodeCode_kwkwk _ _ h257 h4.1 (by simpa [State.ctx] using h4.2)]
    match hps : s.prev, h4.2 with
    | x :: xs, _ => exact ⟨s.accept x (xs ++ [x]), by simp [runCode, execKwkwk, whenReady, hr, h4.1, hps, hl]⟩
  · have hc : s.nextCode.toNat < code.toNat ∨ (code.toNat = s.nextCode.toNat ∧ s.prev = []) := by
      by_cases he : code.toNat = s.nextCode.toNat
      · exact .inr ⟨he, not_not.1 (fun hp => h4 ⟨he, hp⟩)⟩
      · exact .inl (by omega)
    rw [decodeCode_illegal _ _ h257 (by simpa [State.ctx] using hc)]
    exact ⟨s.raise .data (code.setWidth 24), by
      simp only [runCode, execIllegalCode, whenReady, hr, if_true, Config.firstCode]
      rw [if_pos ⟨h257, hc⟩]⟩

/-- Under the invariant a decode step in READY completes, or waits for a silent source (R223). -/
theorem advance_completes (s : State) (hi : s.Inv) (hr : s.st = .ready) :
    (∃ t, advance s = .next t) ∨ (advance s = .fault .sourceSilent ∧ s.src.term = .silent) := by
  unfold advance
  rcases s.fetchCode_cases with ⟨v, u, m, -, -, hm, hf⟩ | ⟨u, -, -, -, hf⟩ | ⟨e, u, -, -, -, hf⟩ | ⟨h1, -, hf⟩ | ⟨h1, -⟩
  · left
    rw [hf]
    exact runCode_completes u (hm.keeps_inv hi) (by rw [hm.keeps.st, hr]) _
  · left; rw [hf]; exact ⟨_, rfl⟩
  · left; rw [hf]; exact ⟨_, rfl⟩
  · right; rw [hf]; exact ⟨rfl, h1⟩
  · exact absurd hr h1

/-- What no decode step of a READ changes. -/
structure LoopKeeps (s t : State) : Prop where
  inbox  : t.inbox = s.inbox
  outbox : t.outbox = s.outbox
  term   : t.src.term = s.src.term
  bytes  : t.src.bytes <:+ s.src.bytes

theorem LoopKeeps.refl (s : State) : LoopKeeps s s := ⟨rfl, rfl, rfl, List.suffix_refl _⟩

theorem LoopKeeps.trans {s t u : State} (h : LoopKeeps s t) (h' : LoopKeeps t u) : LoopKeeps s u :=
  ⟨h'.inbox.trans h.inbox, h'.outbox.trans h.outbox, h'.term.trans h.term, h'.bytes.trans h.bytes⟩

theorem Advance.loopKeeps {s t : State} (h : Advance s t) : LoopKeeps s t := by
  cases h with
  | code v m u t hr hv ht =>
    obtain ⟨-, hsrc, hin, hout, -⟩ := ht.frame
    refine ⟨by rw [hin, hv.keeps.inbox], by rw [hout, hv.keeps.outbox], by rw [hsrc, hv.keeps.term], ?_⟩
    rw [hsrc, hv.bytes]; exact List.drop_suffix _ _
  | ended u hr hu =>
    exact ⟨hu.keeps.inbox, hu.keeps.outbox, hu.keeps.term, by
      show u.src.bytes <:+ _
      rw [hu.bytes]; exact List.nil_suffix⟩
  | failed e u hr hu he =>
    exact ⟨hu.keeps.inbox, hu.keeps.outbox, hu.keeps.term, by
      show u.src.bytes <:+ _
      rw [hu.bytes]; exact List.nil_suffix⟩

theorem ReadRun.loopKeeps {k : Nat} {s t : State} (h : ReadRun k s t) : LoopKeeps s t :=
  h.induct (P := LoopKeeps s) (LoopKeeps.refl s) (fun _ _ ha _ _ hadv => ha.trans hadv.loopKeeps)

/-- The phases the loop can end in. -/
theorem ReadRun.phase {k : Nat} {s t : State} (h : ReadRun k s t) (hs : s.st = .ready) :
    t.st = .ready ∨ t.st = .eos ∨ t.st = .fault := by
  refine h.induct (P := fun a => a.st = .ready ∨ a.st = .eos ∨ a.st = .fault) (.inl hs) ?_
  intro a b _ _ hr hadv
  cases hadv with
  | code v m u t hr hv ht =>
    rcases ht.frame.2.2.2.2.2.2.2 with h | h
    · exact .inl h
    · exact .inr (.inr h)
  | ended u _ hu => exact .inr (.inl rfl)
  | failed e u _ hu he => exact .inr (.inr rfl)

/-- Outside READY the loop does nothing. -/
theorem ReadRun.closed {k : Nat} {s t : State} (h : ReadRun k s t) (hs : s.st ≠ .ready) : t = s := by
  cases h with
  | stop _ _ => rfl
  | more _ _ _ _ hr _ _ => exact absurd hr hs

/-- The errors a decode step of READ can record (R185: `FormatError` never occurs there). -/
theorem ReadRun.faultErr {k : Nat} {s t : State} (h : ReadRun k s t) (hs : s.st ≠ .fault) (ht : t.st = .fault) :
    t.err = .data ∨ t.err = .io := by
  refine h.induct (P := fun a => a.st = .fault → a.err = .data ∨ a.err = .io) (fun ha => absurd ha hs) ?_ ht
  intro a b _ _ _ hadv hb
  cases hadv with
  | ended u _ _ => cases hb
  | failed e u _ _ _ => exact .inr rfl
  | code v m u t _ _ hc =>
    generalize decodeCode u.ctx (v.setWidth 16) = i at hc
    cases hc with
    | clear hr => simp [hr] at hb
    | resolved _ _ hr first rest _ => simp [hr] at hb
    | illegal _ _ => exact .inl rfl

/-- With enough bytes queued the loop does nothing. -/
theorem ReadRun.buffered {k : Nat} {s t : State} (h : ReadRun k s t) (hs : k ≤ s.outQ.length) : t = s := by
  cases h with
  | stop _ _ => rfl
  | more _ _ _ hk _ _ _ => omega

/-- Under the invariant the loop of READ ends, or waits for a silent source (R185, R223). -/
theorem readLoop_completes (k : Nat) :
    ∀ (fuel : Nat) (s : State), s.Inv →
      (∃ t, readLoop fuel k s = .next t) ∨ (readLoop fuel k s = .fault .sourceSilent ∧ s.src.term = .silent) := by
  intro fuel
  induction fuel with
  | zero => intro s _; exact .inl ⟨s, rfl⟩
  | succ fuel ih =>
    intro s hi
    rw [readLoop]
    split
    · rename_i hc
      rcases advance_completes s hi hc.2 with ⟨u, hu⟩ | ⟨h1, h2⟩
      · rw [hu]
        have hadv := advance_next s u hu
        rcases ih u (hadv.keeps_inv hi) with h | ⟨h, h'⟩
        · exact .inl h
        · exact .inr ⟨h, by rw [← hadv.loopKeeps.term]; exact h'⟩
      · rw [h1]; exact .inr ⟨rfl, h2⟩
    · exact .inl ⟨s, rfl⟩

/-! ### INIT HDR (R183) -/

/-- INIT HDR by the source's first bytes and its terminator. -/
theorem execInitHdr_full (s : State) (a b c : Byte) (rest : ByteSeq) (h : s.src.bytes = a :: b :: c :: rest) :
    execInitHdr s =
      if [a, b, c] = Config.magic then
        .next ({ s.newStream with src := ⟨rest, s.src.term, 3, 3⟩, st := .ready }.respond rcOk)
      else
        .next (({ s.newStream with src := ⟨rest, s.src.term, 3, 3⟩ } : State).raise .format 3#24).respondErr := by
  simp only [execInitHdr, pullHeader, Source.pull, State.newStream_src, Source.restart, h, List.nil_append,
    List.cons_append]
  split <;> rfl

theorem execInitHdr_eof (s : State) (h : s.src.bytes.length < 3) (ht : s.src.term = .eof) :
    execInitHdr s =
      .next (({ s.newStream with src := ⟨[], .eof, s.src.bytes.length + 1, s.src.bytes.length⟩ } : State).raise
        .format (BitVec.ofNat 24 s.src.bytes.length)).respondErr := by
  match hb : s.src.bytes with
  | [] => simp [execInitHdr, pullHeader, Source.pull, Source.restart, hb, ht]
  | [a] => simp [execInitHdr, pullHeader, Source.pull, Source.restart, hb, ht]
  | [a, b] => simp [execInitHdr, pullHeader, Source.pull, Source.restart, hb, ht]
  | a :: b :: c :: r => rw [hb] at h; simp at h; omega

theorem execInitHdr_err (s : State) (e : BitVec 24) (h : s.src.bytes.length < 3) (ht : s.src.term = .err e) :
    execInitHdr s =
      .next (({ s.newStream with src := ⟨[], .err e, s.src.bytes.length + 1, s.src.bytes.length⟩ } : State).raise
        .io e).respondErr := by
  match hb : s.src.bytes with
  | [] => simp [execInitHdr, pullHeader, Source.pull, Source.restart, hb, ht]
  | [a] => simp [execInitHdr, pullHeader, Source.pull, Source.restart, hb, ht]
  | [a, b] => simp [execInitHdr, pullHeader, Source.pull, Source.restart, hb, ht]
  | a :: b :: c :: r => rw [hb] at h; simp at h; omega

theorem execInitHdr_silent (s : State) (h : s.src.bytes.length < 3) (ht : s.src.term = .silent) :
    execInitHdr s = .fault .sourceSilent := by
  match hb : s.src.bytes with
  | [] => simp [execInitHdr, pullHeader, Source.pull, Source.restart, hb, ht]
  | [a] => simp [execInitHdr, pullHeader, Source.pull, Source.restart, hb, ht]
  | [a, b] => simp [execInitHdr, pullHeader, Source.pull, Source.restart, hb, ht]
  | a :: b :: c :: r => rw [hb] at h; simp at h; omega

/-- Everything an INIT HDR that completes can do: open the stream, or fault with a format or I/O record. -/
theorem execInitHdr_next (s t : State) (h : execInitHdr s = .next t) :
    ∃ q : Source, (t = ({ s.newStream with src := q, st := .ready } : State).respond rcOk)
      ∨ ∃ k info, (k = .format ∨ k = .io) ∧ (k = .io → s.src.term = .err info)
        ∧ t = (({ s.newStream with src := q } : State).raise k info).respondErr := by
  match hb : s.src.bytes with
  | a :: b :: c :: rest =>
    rw [execInitHdr_full s a b c rest hb] at h
    split at h
    · cases h; exact ⟨_, .inl rfl⟩
    · cases h; exact ⟨_, .inr ⟨.format, _, .inl rfl, by simp, rfl⟩⟩
  | [] | [_] | [_, _] =>
    have hl : s.src.bytes.length < 3 := by rw [hb]; simp
    match ht : s.src.term with
    | .eof => rw [execInitHdr_eof s hl ht] at h; cases h; exact ⟨_, .inr ⟨.format, _, .inl rfl, by simp, rfl⟩⟩
    | .err e => rw [execInitHdr_err s e hl ht] at h; cases h; exact ⟨_, .inr ⟨.io, e, .inr rfl, fun _ => rfl, rfl⟩⟩
    | .silent => rw [execInitHdr_silent s hl ht] at h; cases h

end Sys2Proof.Machine
end

