-- ==== Sys2Proof/Laws/PerInstr.lean ====
section
/-! SUPPORT. Statements made once per constructor of Instr.
`TableRow`: the word of a well-formed instruction has the width, match and mask of its row of the opcode table. -/

namespace Sys2Proof.Laws.TableRow

/-- The columns of the opcode table that a word alone can meet: the format's width in bits, match and mask. -/
structure Row where
  width : Nat
  value : Nat
  mask  : Nat
deriving DecidableEq, Repr

/-- spec/opcode_table.json, a code zero-extended to 16 bits. -/
def row : Instr → Row
  | .clear => ⟨16, 0x0100, 0xFFFF⟩
  | .lit _ => ⟨16, 0x0000, 0xFF00⟩
  | .dict _ => ⟨16, 0x0000, 0x0000⟩
  | .kwkwk _ => ⟨16, 0x0000, 0x0000⟩
  | .illegalCode _ => ⟨16, 0x0000, 0x0000⟩
  | .initRaw => ⟨32, 0x10000000, 0xFFFFFFFF⟩
  | .initHdr => ⟨32, 0x10000001, 0xFFFFFFFF⟩
  | .read _ => ⟨32, 0x20000000, 0xFF000000⟩
  | .release => ⟨32, 0x30000000, 0xFFFFFFFF⟩
  | .status => ⟨32, 0x40000000, 0xFFFFFFFF⟩
  | .illegalCmd _ => ⟨32, 0x00000000, 0x00000000⟩
  | .brGet _ => ⟨7, 0x00, 0x00⟩
  | .brGetRefused _ => ⟨7, 0x40, 0x40⟩
  | .srcPull => ⟨0, 0, 0⟩

/-- The width and the number of a word. -/
def wordOf : RawWord → Nat × Nat
  | .code c => (16, c.toNat)
  | .cmd w => (32, w.toNat)
  | .brReq n => (7, n.toNat)
  | .srcPull => (0, 0)

def Statement (i : Instr) : Prop :=
  i.wf = true → (wordOf (encode i)).1 = (row i).width ∧ (wordOf (encode i)).2 &&& (row i).mask = (row i).value

theorem clear : Statement .clear := fun _ => ⟨rfl, by decide⟩

theorem lit (b : Byte) : Statement (.lit b) := by
  have h : ∀ b : Byte, (b.setWidth 16).toNat &&& 0xFF00 = 0 := by decide
  exact fun _ => ⟨rfl, h b⟩

theorem dict (code : BitVec 16) : Statement (.dict code) := fun _ => ⟨rfl, Nat.and_zero _⟩

theorem kwkwk (code : BitVec 16) : Statement (.kwkwk code) := fun _ => ⟨rfl, Nat.and_zero _⟩

theorem illegalCode (code : BitVec 16) : Statement (.illegalCode code) := fun _ => ⟨rfl, Nat.and_zero _⟩

theorem initRaw : Statement .initRaw := fun _ => ⟨rfl, by decide⟩

theorem initHdr : Statement .initHdr := fun _ => ⟨rfl, by decide⟩

theorem read (k : BitVec 24) : Statement (.read k) := by
  refine fun _ => ⟨rfl, ?_⟩
  have h := (and_readMask (0x20000000#32 ||| k.setWidth 32)).2 (by rw [readWord_toNat]; have := k.isLt; omega)
  have := congrArg BitVec.toNat h
  rwa [BitVec.toNat_and] at this

theorem release : Statement .release := fun _ => ⟨rfl, by decide⟩

theorem status : Statement .status := fun _ => ⟨rfl, by decide⟩

theorem illegalCmd (word : BitVec 32) : Statement (.illegalCmd word) := fun _ => ⟨rfl, Nat.and_zero _⟩

theorem brGet (n : BitVec 7) : Statement (.brGet n) := fun _ => ⟨rfl, Nat.and_zero _⟩

theorem brGetRefused (n : BitVec 7) : Statement (.brGetRefused n) := by
  have h : ∀ n : BitVec 7, 64 < n.toNat → n.toNat &&& 0x40 = 0x40 := by decide
  exact fun hw => ⟨rfl, h n (by simpa [Instr.wf] using hw)⟩

theorem srcPull : Statement .srcPull := fun _ => ⟨rfl, by decide⟩

end Sys2Proof.Laws.TableRow
end

