-- ==== Sys2Proof/Tests/Slice0.lean ====
section
/-! SUPPORT. Tests. Expected results come from spec/: the encoding tables of 30_encoding.md and the vectors of
95_test_vectors.md, named in each docstring. Then one witness per obligation that has hypotheses. -/

namespace Sys2Proof.Tests

open Sys2Proof Sys2Proof.Machine

/-! ### States -/

/-- A source with these bytes and this terminator. -/
def source (bytes : ByteSeq) (term : Terminator := .eof) : Source := ⟨bytes, term, 0, 0⟩

/-- A decoder state written `(CODESIZE, NEXT_CODE, PREV)` in READY, with these dynamic entries, BITQ and OUTQ empty. -/
def decoder (codeSize : BitVec 5) (nextCode : BitVec 17) (prev : ByteSeq) (dict : Memory := []) : State :=
  { State.reset with st := .ready, codeSize := codeSize, nextCode := nextCode, prev := prev, dict := dict }

/-- Right after INIT RAW on a source. -/
def opened (bytes : ByteSeq) (term : Terminator := .eof) : State :=
  { State.reset with st := .ready, src := source bytes term }

/-- Power-on with a source bound. -/
def bound (bytes : ByteSeq) (term : Terminator := .eof) : State := { State.reset with src := source bytes term }

/-- What the decoder vectors show: CODESIZE, NEXT_CODE, PREV, OUTQ and the dynamic entries. -/
structure Shown where
  codeSize : BitVec 5
  nextCode : BitVec 17
  prev     : ByteSeq
  outQ     : ByteSeq
  dict     : Memory
deriving DecidableEq, Repr

def shown (o : Host.Outcome State Fault Refusal) : Option Shown :=
  (nextOf o).map (fun t => ⟨t.codeSize, t.nextCode, t.prev, t.outQ, t.dict⟩)

/-- What the host vectors show: the answers, the status words and the pulls. -/
structure Answered where
  outbox : List Response
  w0     : BitVec 32
  w1     : BitVec 32
  w2     : BitVec 32
  pulls  : Nat
deriving DecidableEq, Repr

def answered (o : Host.Outcome State Fault Refusal) : Option Answered :=
  (nextOf o).map (fun t => ⟨t.outbox, t.w0, t.w1, t.w2, t.src.pulls⟩)

/-- What the bit reader vectors show: the result, BITCNT, BITBUF and the pulls. -/
def readerShown (o : Host.Outcome State Fault Refusal) : Option (Option Response × BitVec 7 × BitVec 72 × Nat) :=
  (nextOf o).map (fun t => (t.outbox.getLast?, t.bitCnt, t.bitBuf, t.src.pulls))

/-- An answer of the host with no data and no status words. -/
def bare (resp : BitVec 32) : Response := .host resp [] []

/-! ### WellFormed: each check refuses an ill-formed term -/

theorem test_wf_dict_of_the_placeholder : (Instr.dict 256#16).wf = false := by decide
theorem test_wf_kwkwk_of_the_placeholder : (Instr.kwkwk 256#16).wf = false := by decide
theorem test_wf_illegalCode_of_a_literal : (Instr.illegalCode 255#16).wf = false := by decide
theorem test_wf_read_of_nothing : (Instr.read 0#24).wf = false := by decide
theorem test_wf_illegalCmd_of_a_legal_word :
    ([0x10000000#32, 0x10000001#32, 0x20000001#32, 0x30000000#32, 0x40000000#32].map
      (fun w => (Instr.illegalCmd w).wf)) = [false, false, false, false, false] := by decide
theorem test_wf_brGet_too_wide : (Instr.brGet 65#7).wf = false := by decide
theorem test_wf_brGetRefused_of_a_legal_width : (Instr.brGetRefused 64#7).wf = false := by decide
theorem test_legalIn_dict_not_an_entry : (Instr.dict 257#16).legalIn ⟨257#17, false⟩ = false := by decide
theorem test_legalIn_kwkwk_without_prev : (Instr.kwkwk 257#16).legalIn ⟨257#17, true⟩ = false := by decide
theorem test_legalIn_illegalCode_of_kwkwk : (Instr.illegalCode 257#16).legalIn ⟨257#17, false⟩ = false := by decide

/-! ### Decoding: one word per constructor, written out from the encoding tables -/

/-- R103: 256 in 9 bits. -/
theorem test_decode_clear : decodeTableWord 9 0b100000000 = some .clear := by decide
/-- R103: `'a'` in 9 bits. -/
theorem test_decode_lit : decodeTableWord 9 0b001100001 = some (.lit 0x61#8) := by decide
/-- R103: 258 with NEXT_CODE 259, in 9 bits. -/
theorem test_decode_dict : decodeBits ⟨259#17, false⟩ 9 0b100000010 = .ok (.dict 258#16) := by decide
/-- R103: 259 with NEXT_CODE 259 and PREV non-empty. -/
theorem test_decode_kwkwk : decodeBits ⟨259#17, false⟩ 9 0b100000011 = .ok (.kwkwk 259#16) := by decide
/-- R103: 260 with NEXT_CODE 259. -/
theorem test_decode_illegalCode : decodeBits ⟨259#17, false⟩ 9 0b100000100 = .ok (.illegalCode 260#16) := by decide
/-- R96: OP 1, HDR 0. -/
theorem test_decode_initRaw : decodeTableWord 32 0b00010000000000000000000000000000 = some .initRaw := by decide
/-- R96: OP 1, HDR 1. -/
theorem test_decode_initHdr : decodeTableWord 32 0b00010000000000000000000000000001 = some .initHdr := by decide
/-- R97: OP 2, K 5. -/
theorem test_decode_read : decodeTableWord 32 0b00100000000000000000000000000101 = some (.read 5#24) := by decide
/-- R98: OP 3. -/
theorem test_decode_release : decodeTableWord 32 0b00110000000000000000000000000000 = some .release := by decide
/-- R98: OP 4. -/
theorem test_decode_status : decodeTableWord 32 0b01000000000000000000000000000000 = some .status := by decide
/-- HC-10, HC-11: the illegal words. -/
theorem test_decode_illegalCmd :
    [0x00000000, 0x20000000, 0x10000002, 0x10000003, 0x1FFFFFFF, 0x21000001, 0x30000001, 0x40000001, 0x50000000,
      0xF0000000].all (fun w => decodeTableWord 32 w = some (.illegalCmd (BitVec.ofNat 32 w))) = true := by decide
/-- R101: a width of 64. -/
theorem test_decode_brGet : decodeTableWord 7 0b1000000 = some (.brGet 64#7) := by decide
/-- R127: a width of 65. -/
theorem test_decode_brGetRefused : decodeTableWord 7 0b1000001 = some (.brGetRefused 65#7) := by decide
/-- R61: no operand. -/
theorem test_decode_srcPull : decodeTableWord 0 0 = some .srcPull := by decide
/-- R90: no format has 33 bits, and no 9-bit code is 512. -/
theorem test_decode_rejects :
    decodeTableWord 33 0 = none ∧ decodeTableWord 9 512 = none ∧ decodeTableWord 8 128 = none := by decide

/-! ### The code classes (95_test_vectors.md section 3) -/

/-- DC-2. -/
theorem test_lit_inserts :
    shown (exec (.lit 0x62#8) (decoder 9 257 [0x61])) = some ⟨9, 258, [0x62], [0x62], [(257, [0x61, 0x62])]⟩ := by
  decide
/-- DC-16: the width change at 512. -/
theorem test_lit_grows_the_width :
    shown (exec (.lit 0x62#8) (decoder 9 511 [0x61])) = some ⟨10, 512, [0x62], [0x62], [(511, [0x61, 0x62])]⟩ := by
  decide
/-- DC-8. -/
theorem test_clear_resets : shown (exec .clear (decoder 12 3000 [0x6B] [(2999, [1, 2])])) = some ⟨9, 257, [], [], []⟩ := by
  decide
/-- DC-14. -/
theorem test_dict_inserts :
    shown (exec (.dict 299#16) (decoder 9 300 [0x6D, 0x6E] [(299, [0x70, 0x71])]))
      = some ⟨9, 301, [0x70, 0x71], [0x70, 0x71], [(299, [0x70, 0x71]), (300, [0x6D, 0x6E, 0x70])]⟩ := by
  decide
/-- DC-27: frozen. -/
theorem test_dict_frozen :
    shown (exec (.dict 65535#16) (decoder 16 65536 [0x41, 0x42] [(65535, [0x41, 0x42])]))
      = some ⟨16, 65536, [0x41, 0x42], [0x41, 0x42], [(65535, [0x41, 0x42])]⟩ := by
  decide
/-- DC-4. -/
theorem test_kwkwk_writes_once :
    shown (exec (.kwkwk 259#16) (decoder 9 259 [0x61, 0x62]))
      = some ⟨9, 260, [0x61, 0x62, 0x61], [0x61, 0x62, 0x61], [(259, [0x61, 0x62, 0x61])]⟩ := by
  decide
/-- DC-25: the last entry. -/
theorem test_kwkwk_fills_the_dictionary :
    shown (exec (.kwkwk 65535#16) (decoder 16 65535 [0x5A, 0x59]))
      = some ⟨16, 65536, [0x5A, 0x59, 0x5A], [0x5A, 0x59, 0x5A], [(65535, [0x5A, 0x59, 0x5A])]⟩ := by
  decide
/-- DC-10. -/
theorem test_illegalCode_records_the_code :
    shown (exec (.illegalCode 3001#16) (decoder 12 3000 [0x6B])) = some ⟨12, 3000, [0x6B], [], []⟩
      ∧ (nextOf (exec (.illegalCode 3001#16) (decoder 12 3000 [0x6B]))).map (fun t => (t.st, t.err, t.errInfo))
        = some (.fault, .data, 0xBB9#24) := by
  decide
/-- DC-12. -/
theorem test_illegalCode_next_code_without_prev :
    (nextOf (exec (.illegalCode 257#16) (decoder 9 257 []))).map (fun t => (t.st, t.errInfo)) = some (.fault, 257#24) := by
  decide

/-! ### The bit reader (95_test_vectors.md section 2) and the source -/

/-- BR-1. -/
theorem test_brGet_low_bits_first :
    readerShown (exec (.brGet 9#7) (bound [0x61, 0xC4])) = some (some (.bits (.value 0x61)), 7, 0x62, 2) := by
  decide
/-- BR-14, second call: BITCNT reaches 71 inside. -/
theorem test_brGet_widest :
    readerShown (exec (.brGet 64#7)
        { bound [2, 3, 4, 5, 6, 7, 8, 9] with bitCnt := 7, bitBuf := 0, src := ⟨[2, 3, 4, 5, 6, 7, 8, 9], .eof, 1, 1⟩ })
      = some (some (.bits (.value 0x8403830282018100)), 7, 0x04, 9) := by
  decide
/-- BR-5 and BR-8: no data, and an error passed on; the bits pulled stay. -/
theorem test_brGet_short :
    readerShown (exec (.brGet 64#7) (bound [1, 2, 3, 4, 5, 6, 7])) = some (some (.bits .noData), 56, 0x07060504030201, 8)
      ∧ readerShown (exec (.brGet 16#7) (bound [0xFF] (.err 7))) = some (some (.bits (.ioErr 7)), 8, 0xFF, 2) := by
  decide
/-- BR-11. -/
theorem test_brGetRefused : exec (.brGetRefused 65#7) (bound [1]) = .refused .brWidth := rfl
/-- R62: the bytes in order, then the terminator again and again. -/
theorem test_srcPull :
    (nextOf (exec .srcPull (bound [0x41]))).map (fun t => (t.outbox, t.src)) = some ([.source (.byte 0x41)], ⟨[], .eof, 1, 1⟩)
      ∧ (nextOf (exec .srcPull (bound [] (.err 3)))).map (fun t => t.outbox) = some [.source (.err 3)] := by
  decide

/-! ### Host commands (95_test_vectors.md section 4) -/

/-- HC-17: the queued byte is discarded. -/
theorem test_initRaw_discards :
    answered (exec .initRaw { decoder 9 259 [0x61, 0x62] with outQ := [0x62] }) = some ⟨[bare 0], 0x00020291, 0, 0, 0⟩ := by
  decide
/-- V-S1, first command. -/
theorem test_initHdr_opens :
    answered (exec .initHdr (bound [0x1F, 0x9D, 0x90, 0x61, 0xC4, 0x8C, 0x21])) = some ⟨[bare 0], 0x00020291, 0, 0, 3⟩ := by
  decide
/-- HC-4, HC-5, HC-6 and HC-13. -/
theorem test_initHdr_errors :
    answered (exec .initHdr (bound [0x1F, 0x9D])) = some ⟨[bare 1], 0x00020297, 2, 0, 3⟩
      ∧ answered (exec .initHdr (bound [0x1F, 0x9D, 0x91, 0x61])) = some ⟨[bare 1], 0x00020297, 3, 0, 3⟩
      ∧ answered (exec .initHdr (bound [0x1F] (.err 5))) = some ⟨[bare 3], 0x0002029F, 5, 0, 2⟩
      ∧ answered (exec .initHdr (bound [0, 0x9D, 0x90, 1])) = some ⟨[bare 1], 0x00020297, 3, 0, 3⟩ := by
  decide
/-- V-S1: the source's own fixture, after its header. -/
theorem test_read_fixture :
    answered (exec (.read 16#24) { decoder 9 257 [] with src := ⟨[0x61, 0xC4, 0x8C, 0x21], .eof, 3, 3⟩ })
      = some ⟨[.host 0x30 [0x61, 0x62, 0x63] []], 0x04020692, 0, 0x000A0000, 8⟩ := by
  decide
/-- HC-19: an I/O error with bytes queued. -/
theorem test_read_io_error :
    answered (exec (.read 10#24) (opened [0x61, 0xC4, 0x8C] (.err 9)))
      = some ⟨[.host 0x23 [0x61, 0x62] []], 0x0402049F, 9, 0x000C0000, 4⟩ := by
  decide
/-- HC-9. -/
theorem test_release :
    answered (exec .release { decoder 9 259 [0x63] with st := .eos, bitCnt := 5 }) = some ⟨[bare 0], 0x00020290, 0, 0, 0⟩ := by
  decide
/-- HC-8 and HC-18. -/
theorem test_status :
    (nextOf (exec .status { decoder 9 259 [0x63] with st := .eos, bitCnt := 5 })).map (fun t => t.outbox)
        = some [.host 0 [] [0x04020692, 0, 0x000A0000]]
      ∧ (nextOf (exec .status { decoder 9 257 [0x61] with st := .fault, err := .data, errInfo := 300, bitCnt := 6 })).map
          (fun t => t.outbox)
        = some [.host 0 [] [0x0402029B, 0x12C, 0x000C0000]] := by
  decide
/-- HC-10. -/
theorem test_illegalCmd :
    (nextOf (exec (.illegalCmd 0#32) (decoder 9 258 [0x61]))).map (fun t => (t.outbox, t.w0))
      = some ([bare 4], (decoder 9 258 [0x61]).w0) := by
  decide

/-! ### The step and the placed word -/

/-- R142: a decode step reads its code at CODESIZE bits, R103 classifies it (DC-1). -/
theorem test_step_decodes :
    (nextOf (step { opened [0x61, 0xC4] with inbox := [.decodeStep] })).map (fun t => (t.prev, t.outQ, t.bitCnt, t.src.pulls))
      = some ([0x61], [0x61], 7, 2) := by
  decide
/-- R194: the host hands a source over with INIT. -/
theorem test_step_hands_over :
    (nextOf (step { State.reset with inbox := [.cmd 0x10000000 (some (source [0x41, 0]))] })).map
        (fun t => (t.st, t.src.bytes, t.inbox, t.outbox))
      = some (.ready, [0x41, 0], [], [bare 0]) := by
  decide
/-- A placed code of the first table row runs as that instruction right after reset. -/
theorem test_withFetchWord_code :
    step (State.reset.withFetchWord 16 0x0100) = exec .clear { decoder 9 257 [] with bitCnt := 0 }
      ∧ (nextOf (step (State.reset.withFetchWord 16 0xFFFF))).map (fun t => (t.st, t.errInfo)) = some (.fault, 0xFFFF#24) := by
  refine ⟨rfl, by decide⟩
/-- A placed command, request and pull. -/
theorem test_withFetchWord_requests :
    step (State.reset.withFetchWord 32 0x40000000) = exec .status State.reset
      ∧ step (State.reset.withFetchWord 8 0x09) = exec (.brGet 9#7) State.reset
      ∧ step (State.reset.withFetchWord 0 0) = exec .srcPull State.reset :=
  ⟨rfl, rfl, rfl⟩

/-! ### The assembler text and the widths -/

/-- 95_test_vectors.md section 3: the width of the `j`-th code. -/
theorem test_epochWidth :
    [0, 1, 2, 255, 256, 767, 768, 1791, 1792, 32511, 32512, 65279, 65280, 70000].map epochWidth
      = [9, 9, 9, 9, 10, 10, 11, 11, 12, 15, 16, 16, 16, 16] := by
  decide
/-- P3: a CLEAR in mid-stream, and P1 with the magic header, zero padded. -/
theorem test_assemble :
    assemble [.lit 0x61, .lit 0x62, .code 257, .clear, .lit 0x62, .lit 0x61, .code 257]
        = some [0x61, 0xC4, 0x04, 0x04, 0x28, 0x26, 0x4C, 0x40]
      ∧ assemble [.magic, .lit 0x61, .lit 0x62, .lit 0x63] = some [0x1F, 0x9D, 0x90, 0x61, 0xC4, 0x8C, 0x01]
      ∧ assemble [.lit 0x61, .magic] = none := by
  decide
/-- R110, R112 and P3's text, several items on a line as in P7. -/
theorem test_readProgram :
    readProgram ".magic ; 1F 9D 90\nLIT 'a'  LIT 98 ; text\nCLEAR\nCODE 257".toList
        = some [.magic, .lit 0x61, .lit 98, .clear, .code 257]
      ∧ readProgram "LIT 256".toList = none ∧ readProgram "CODE 65536".toList = none := by
  decide
/-- R111. -/
theorem test_readHostLine :
    readHostLine "READ 16".toList = some (.read 16) ∧ readHostLine "INIT HDR".toList = some .initHdr
      ∧ readHostLine "READ 0".toList = none := by
  decide
/-- R111: a response; the words of HC-8, as the spec writes them. -/
theorem test_writeResponse :
    writeResponse (.host 0x30 [0x61, 0x62, 0x63] []) = some "-> OK 3 \"abc\"".toList
      ∧ writeResponse (.host 0 [] [0x04020692, 0, 0x000A0000])
          = some "-> OK 0x04020692 0x00000000 0x000A0000".toList := by
  decide

/-! ### Witnesses: for each obligation with hypotheses, a concrete state and operands that meet them all -/

/-- Program P2 after READ 3, with a READ of 100 waiting: the state most witnesses use. -/
def mid : State where
  st       := .ready
  err      := .none
  errInfo  := 0
  codeSize := 9
  nextCode := 259
  dict     := [(257, [0x61, 0x62]), (258, [0x62, 0x61])]
  prev     := [0x61, 0x62]
  bitBuf   := 3
  bitCnt   := 5
  outQ     := [0x62]
  src      := ⟨[0x28, 0x06], .eof, 4, 4⟩
  inbox    := [.cmd 0x20000064 none]
  outbox   := [.host 0x30 [0x61, 0x62, 0x61] []]

/-- `mid` with its stream ended and its queue delivered. -/
def ended : State := { mid with st := .eos, outQ := [] }

/-- `mid` after a data error. -/
def failed : State := { mid with st := .fault, err := .data, errInfo := 300, outQ := [] }

/-- `mid` with a source that fails at once. -/
def failing : State := { mid with src := ⟨[], .err 9, 4, 4⟩ }

/-- `mid` with a source that never answers. -/
def waiting : State := { mid with src := ⟨[], .silent, 4, 4⟩ }

/-- A full dictionary, as far as the code 65535 shows it. -/
def full : State := decoder 16 65536 [0x41, 0x42] [(65535, [0x41, 0x42])]

theorem exists_next {o : Host.Outcome State Fault Refusal} (p : State → Bool) (h : (nextOf o).any p = true) :
    ∃ t, o = .next t ∧ p t = true := by
  cases o with
  | next t => exact ⟨t, rfl, by simpa [nextOf] using h⟩
  | fault r => cases h
  | refused r => cases h

theorem completes {o : Host.Outcome State Fault Refusal} (h : (nextOf o).isSome = true) : ∃ t, o = .next t := by
  cases o with
  | next t => exact ⟨t, rfl⟩
  | fault r => cases h
  | refused r => cases h

theorem mid_inv : mid.Inv := by
  refine ⟨by decide, by decide, by decide, by decide, ?_, by decide, fun _ => ⟨257, by decide⟩, by decide, by decide,
    by decide, by decide⟩
  intro e he
  simp only [mid, List.mem_cons, List.not_mem_nil, or_false] at he
  rcases he with rfl | rfl
  · exact ⟨by decide, 0x61, by decide⟩
  · exact ⟨by decide, 0x62, by decide⟩

theorem mid_hostInv : mid.HostInv := by
  refine ⟨mid_inv, by decide, .inr ⟨[0x61], by decide, by decide⟩, by decide, by decide, fun h => ?_⟩
  exact absurd h (by decide)

theorem ended_inv : ended.Inv := (mid_inv.ended rfl).congr rfl rfl rfl rfl rfl rfl rfl rfl rfl

theorem ended_hostInv : ended.HostInv := by
  refine ⟨ended_inv, by decide, .inl rfl, by decide, by decide, fun h => ?_⟩
  exact absurd h (by decide)

theorem failing_inv : failing.Inv := mid_inv.congr rfl rfl rfl rfl rfl rfl rfl rfl rfl

theorem waiting_inv : waiting.Inv := mid_inv.congr rfl rfl rfl rfl rfl rfl rfl rfl rfl

/-! #### Reset and encodings -/

theorem witness_InitForgetsTheEngine :
    ∃ s s' : State, s ≠ s' ∧ s.src.bytes = s'.src.bytes ∧ s.src.term = s'.src.term ∧ s.inbox = s'.inbox
      ∧ s.outbox = s'.outbox ∧ (∃ t t', exec .initRaw s = .next t ∧ exec .initRaw s' = .next t')
      ∧ ∃ t, exec .initHdr s = .next t :=
  ⟨mid, { failed with st := .fault }, by decide, rfl, rfl, rfl, rfl, ⟨_, _, rfl, rfl⟩, completes (by decide)⟩

theorem witness_ClearResetsTheDictionaryAlone : mid.st = .ready := rfl

theorem witness_ClearLeavesWhatInitLeaves : ∃ t t', exec .clear mid = .next t ∧ exec .initRaw failed = .next t' :=
  ⟨_, _, rfl, rfl⟩

theorem witness_DecodeOfEncodeIsTheInstruction :
    [Instr.clear, .lit 0xFF, .dict 257, .kwkwk 258, .illegalCode 0xFFFF, .initRaw, .initHdr, .read 1, .read 0xFFFFFF,
      .release, .status, .illegalCmd 0xFFFFFFFF, .brGet 64, .brGetRefused 65, .srcPull].all
      (fun i => i.wf && i.legalIn ⟨258, false⟩) = true := by decide

theorem witness_EncodeOfDecodeIsTheWord : 257 ≤ DecodeCtx.atReset.nextCode.toNat := by decide

/-- Every clause, at the ends of READ's operand range. -/
theorem witness_CommandWordClassification :
    (0x10000000#32 &&& 0xFFFFFFFF#32 = 0x10000000#32) ∧ (0x10000001#32 &&& 0xFFFFFFFF#32 = 0x10000001#32)
      ∧ (0x20000001#32 &&& 0xFF000000#32 = 0x20000000#32 ∧ (0x20000001#32 &&& 0x00FFFFFF#32) ≠ 0#32)
      ∧ (0x20FFFFFF#32 &&& 0xFF000000#32 = 0x20000000#32 ∧ (0x20FFFFFF#32 &&& 0x00FFFFFF#32) ≠ 0#32)
      ∧ (0x30000000#32 &&& 0xFFFFFFFF#32 = 0x30000000#32) ∧ (0x40000000#32 &&& 0xFFFFFFFF#32 = 0x40000000#32)
      ∧ [0x10000002#32, 0x20000000#32, 0x21000000#32, 0x30000001#32, 0x40000001#32, 0x00000000#32].all (fun w =>
          w != 0x10000000#32 && w != 0x10000001#32
            && !(w &&& 0xFF000000#32 == 0x20000000#32 && (w &&& 0x00FFFFFF#32) != 0#32)
            && w != 0x30000000#32 && w != 0x40000000#32) = true := by decide

/-- Every clause at NEXT_CODE 258, at the codes where clauses meet. -/
theorem witness_CodeClassification :
    257 ≤ (258#17).toNat ∧ (256#16).toNat = 256 ∧ (255#16).toNat ≤ 255
      ∧ (257 ≤ (257#16).toNat ∧ (257#16).toNat < (258#17).toNat) ∧ (258#16).toNat = (258#17).toNat
      ∧ (258#17).toNat < (259#16).toNat := by decide

theorem witness_WidthOfTheNthCodeOfAnEpoch :
    ∃ (is : List Instr) (s t : State), is.length = 4 ∧ s.codeSize.toNat = 9 ∧ s.nextCode.toNat = 257 ∧ s.prev = []
      ∧ (∀ i ∈ is, i.resolves = true) ∧ runAll is s = .next t := by
  obtain ⟨t, ht⟩ := completes (o := runAll [.lit 0x61, .lit 0x62, .dict 257, .kwkwk 259] (decoder 9 257 []))
    (by rfl)
  exact ⟨_, _, t, rfl, by decide, by decide, rfl, by decide, ht⟩

/-! #### The step -/

/-- Every clause: both INITs, another command, a decode step with a code, a width, a pull, and an empty inbox. -/
theorem witness_StepRunsTheDecodedInstruction :
    (decodeCmd 0x10000000 = .initRaw ∧ decodeCmd 0x10000001 = .initHdr)
      ∧ (mid.inbox = .cmd 0x20000064 none :: [] ∧ decodeCmd 0x20000064 ≠ .initRaw ∧ decodeCmd 0x20000064 ≠ .initHdr)
      ∧ (mid.st = .ready ∧ ∃ v t, { mid with inbox := [] }.brGet mid.codeSize.toNat = some (.value v, t))
      ∧ (∃ s : State, s.inbox = .decodeStep :: []) ∧ (∃ s : State, s.inbox = .brReq 9 :: [])
      ∧ (∃ s : State, s.inbox = .srcPull :: []) ∧ State.reset.inbox = [] :=
  ⟨by decide, by decide, ⟨rfl, _, _, rfl⟩, ⟨{ mid with inbox := [.decodeStep] }, rfl⟩,
    ⟨{ mid with inbox := [.brReq 9] }, rfl⟩, ⟨{ mid with inbox := [.srcPull] }, rfl⟩, rfl⟩

/-- Every clause: the stream at its end, failed, silent, and closed. -/
theorem witness_DecodeStepWithoutACode :
    (∃ t, (opened []).st = .ready ∧ (opened []).brGet 9 = some (.noData, t))
      ∧ (∃ t, (opened [] (.err 9)).brGet 9 = some (.ioErr 9, t))
      ∧ (opened [] .silent).brGet 9 = none ∧ ended.st ≠ .ready :=
  ⟨⟨_, rfl, rfl⟩, ⟨_, rfl⟩, rfl, by decide⟩

theorem witness_EveryStepKeepsTheInvariant : mid.Inv ∧ ∃ t, step mid = .next t := ⟨mid_inv, completes (by decide)⟩

theorem witness_HostStepsKeepTheHostInvariant : mid.HostInv ∧ ∃ t, step mid = .next t :=
  ⟨mid_hostInv, completes (by decide)⟩

/-- Every clause, and a prefix shorter than its entry. -/
theorem witness_SequenceLengths :
    mid.Inv ∧ mid.dict.read 257 = some [0x61, 0x62] ∧ 1 ≤ 1 ∧ 1 ≤ [0x61#8, 0x62#8].length := ⟨mid_inv, by decide⟩

/-- Every clause: the four phases entered. -/
theorem witness_PhaseChanges :
    (∃ t, exec .release mid = .next t ∧ decide (t.st = .uninit ∧ t.st ≠ mid.st) = true)
      ∧ (∃ t, exec .initRaw failed = .next t ∧ decide (t.st = .ready ∧ t.st ≠ failed.st) = true)
      ∧ (∃ t, exec (.read 100) mid = .next t ∧ decide (t.st = .eos ∧ t.st ≠ mid.st) = true)
      ∧ (∃ t, exec (.illegalCode 300) mid = .next t ∧ decide (t.st = .fault ∧ t.st ≠ mid.st) = true)
      ∧ (∃ t, exec .initHdr mid = .next t ∧ decide (t.st = .fault ∧ t.st ≠ mid.st) = true) :=
  ⟨exists_next _ (by decide), exists_next _ (by decide), exists_next _ (by decide), exists_next _ (by decide),
    exists_next _ (by decide)⟩

/-! #### The code classes -/

theorem witness_LiteralResolvesToItsByte :
    (mid.st = .ready ∧ 257 ≤ mid.nextCode.toNat ∧ mid.nextCode.toNat ≤ 65536)
      ∧ (full.st = .ready ∧ 257 ≤ full.nextCode.toNat ∧ full.nextCode.toNat ≤ 65536) := by decide

theorem witness_DictionaryCodeResolvesToItsEntry :
    mid.st = .ready ∧ mid.nextCode.toNat ≤ 65536 ∧ 257 ≤ (258#16).toNat ∧ (258#16).toNat < mid.nextCode.toNat
      ∧ mid.dict.read (258#16).toNat = some [0x62, 0x61] := by decide

theorem witness_DictionaryCodeAlwaysNamesAnEntry :
    mid.Inv ∧ mid.st = .ready ∧ 257 ≤ (257#16).toNat ∧ (257#16).toNat < mid.nextCode.toNat := ⟨mid_inv, by decide⟩

theorem witness_KwkwkResolvesFromPrev :
    mid.st = .ready ∧ 257 ≤ (259#16).toNat ∧ (259#16).toNat = mid.nextCode.toNat ∧ mid.prev = 0x61 :: [0x62] := by decide

/-- Both alternatives: the code after NEXT_CODE, and NEXT_CODE itself with PREV empty. -/
theorem witness_IllegalCodeRaisesDataError :
    (mid.st = .ready ∧ 257 ≤ (260#16).toNat ∧ mid.nextCode.toNat < (260#16).toNat)
      ∧ ((decoder 9 257 []).st = .ready ∧ 257 ≤ (257#16).toNat
        ∧ (257#16).toNat = (decoder 9 257 []).nextCode.toNat ∧ (decoder 9 257 []).prev = []) := by decide

/-- Both clauses. -/
theorem witness_CodeOutOfPlaceIsRefused :
    (Instr.clear.isCode = true ∧ ended.st ≠ .ready)
      ∧ ((Instr.dict 259).isCode = true ∧ mid.st = .ready ∧ (Instr.dict 259).wf = true
        ∧ (Instr.dict 259).legalIn ⟨mid.nextCode, mid.prev.isEmpty⟩ = false) := by decide

theorem witness_FirstCodeOfAnEpoch :
    (decoder 9 257 []).st = .ready ∧ (decoder 9 257 []).nextCode.toNat = 257 ∧ (decoder 9 257 []).prev = [] := by decide

theorem witness_FullDictionaryIsFrozen :
    full.nextCode.toNat = 65536 ∧ (65535#16).toNat ≠ 256
      ∧ ∃ t, exec (decodeCode ⟨full.nextCode, full.prev.isEmpty⟩ 65535#16) full = .next t :=
  ⟨by decide, by decide, completes (by decide)⟩

theorem witness_CountersMoveByOneOrReset :
    (Instr.lit 0x62).isCode = true ∧ (decoder 9 511 [0x61]).nextCode.toNat ≤ 65536
      ∧ ∃ t, exec (.lit 0x62) (decoder 9 511 [0x61]) = .next t :=
  ⟨rfl, by decide, completes (by decide)⟩

/-! #### The bit reader and the source -/

/-- At the widths 0, 9 and 64. -/
theorem witness_BitReaderReturnsTheOldestBits :
    ∀ n ∈ [0#7, 9#7, 64#7], n.toNat ≤ 64
      ∧ (bound [1, 2, 3, 4, 5, 6, 7, 8]).bitBuf.toNat < 2 ^ (bound [1, 2, 3, 4, 5, 6, 7, 8]).bitCnt.toNat
      ∧ n.toNat ≤ (bound [1, 2, 3, 4, 5, 6, 7, 8]).bitCnt.toNat + 8 * (bound [1, 2, 3, 4, 5, 6, 7, 8]).src.bytes.length := by
  decide

/-- Both terminators, one bit short. -/
theorem witness_BitReaderWithTooFewBits :
    (mid.bitBuf.toNat < 2 ^ mid.bitCnt.toNat ∧ mid.bitCnt.toNat + 8 * mid.src.bytes.length < (22#7).toNat
        ∧ mid.src.term = .eof)
      ∧ (failing.bitBuf.toNat < 2 ^ failing.bitCnt.toNat ∧ failing.bitCnt.toNat + 8 * failing.src.bytes.length < (6#7).toNat
        ∧ failing.src.term = .err 9) := by decide

theorem witness_WideGetIsRefused : (64 < (65#7).toNat ∧ 64 < (127#7).toNat) ∧ mid.Inv := ⟨by decide, mid_inv⟩

/-- A call that pulls and one that finds too few bits. -/
theorem witness_BitCountBound :
    mid.bitCnt.toNat ≤ 71 ∧ (∃ t, exec (.brGet 9) mid = .next t ∧ decide (t.outbox.length = 2) = true)
      ∧ ∃ t, exec (.brGet 64) mid = .next t ∧ decide (t.outbox = mid.outbox ++ [.bits .noData]) = true :=
  ⟨by decide, exists_next _ (by decide), exists_next _ (by decide)⟩

theorem witness_RepeatedGetReconstructsTheStream :
    ∀ n ∈ [1#7, 9#7, 64#7], 1 ≤ n.toNat ∧ n.toNat ≤ 64 ∧ (bound [0x61, 0xC4, 0x8C]).bitCnt = 0#7
      ∧ (bound [0x61, 0xC4, 0x8C]).bitBuf = 0#72 ∧ (bound [0x61, 0xC4, 0x8C]).src.term = .eof := by decide

theorem witness_PackedCodeIsReadBack :
    ∃ s : State, (9#7).toNat ≤ 64 ∧ 97 < 2 ^ (9#7).toNat ∧ s.bitCnt = 0#7 ∧ s.bitBuf = 0#72
      ∧ s.src.bytes = packBits (bitsOf 97 (9#7).toNat ++ [true]) :=
  ⟨bound (packBits (bitsOf 97 9 ++ [true])), by decide, by decide, rfl, rfl, rfl⟩

/-- P2's stream from its fourth code on: 259, then `'b'`, with 3 bits of padding. -/
theorem witness_AssembledCodeIsFetched :
    mid.st = .ready ∧ mid.bitBuf.toNat < 2 ^ mid.bitCnt.toNat ∧ mid.codeSize.toNat = epochWidth 3
      ∧ (259#16).toNat < 2 ^ epochWidth 3
      ∧ mid.bitQ ++ streamBits mid.src.bytes = codeStreamBits 3 (259#16 :: [0x62#16]) ++ [false, false, false] := by decide

theorem witness_CodeFetchMovesTheCursor : ∃ v t, mid.brGet mid.codeSize.toNat = some (.value v, t) := ⟨_, _, rfl⟩

/-- Every clause. -/
theorem witness_SourcePullAnswersOnce :
    mid.src.bytes = 0x28 :: [0x06] ∧ ((bound []).src.term = .eof ∧ (bound []).src.bytes = [])
      ∧ (failing.src.term = .err 9 ∧ failing.src.bytes = []) := by decide

/-- Every clause, the widths one bit more than what is left. -/
theorem witness_SilentSourceLeavesNoStep :
    waiting.src.term = .silent ∧ waiting.src.bytes = []
      ∧ ((6#7).toNat ≤ 64 ∧ waiting.bitCnt.toNat + 8 * waiting.src.bytes.length < (6#7).toNat)
      ∧ waiting.src.bytes.length < 3
      ∧ (waiting.st = .ready ∧ waiting.outQ.length < (2#24).toNat
        ∧ waiting.bitCnt.toNat + 8 * waiting.src.bytes.length < waiting.codeSize.toNat) := by decide

/-! #### The host commands -/

/-- Every clause: the header, three other bytes, two bytes with each terminator, and a command that completes. -/
theorem witness_InitHdrChecksTheHeader :
    (bound [0x1F, 0x9D, 0x90]).src.bytes = 0x1F#8 :: 0x9D#8 :: 0x90#8 :: []
      ∧ ((bound [0x1F, 0x9D, 0x91]).src.bytes = 0x1F#8 :: 0x9D#8 :: 0x91#8 :: []
        ∧ [0x1F#8, 0x9D#8, 0x91#8] ≠ [0x1F#8, 0x9D#8, 0x90#8])
      ∧ ((bound [0x1F, 0x9D]).src.bytes.length < 3 ∧ (bound [0x1F, 0x9D]).src.term = .eof)
      ∧ ((bound [0x1F, 0x9D] (.err 5)).src.bytes.length < 3 ∧ (bound [0x1F, 0x9D] (.err 5)).src.term = .err 5)
      ∧ ∃ t, exec .initHdr mid = .next t :=
  ⟨by decide, by decide, by decide, by decide, completes (by decide)⟩

/-- The narrowest and the widest error code, at INIT HDR and at a READ. -/
theorem witness_IoErrorCodeIsUnchanged :
    (∃ t, (bound [] (.err ((1#1).setWidth 24))).src.term = .err ((1#1).setWidth 24)
        ∧ exec .initHdr (bound [] (.err ((1#1).setWidth 24))) = .next t ∧ decide (t.st = .fault ∧ t.err = .io) = true)
      ∧ ∃ t, (opened [] (.err ((0xFFFFFF#24).setWidth 24))).st ≠ .fault
        ∧ exec (.read 1) (opened [] (.err ((0xFFFFFF#24).setWidth 24))) = .next t
        ∧ decide (t.st = .fault ∧ t.err = .io) = true := by
  obtain ⟨t, h1, h2⟩ := exists_next (o := exec .initHdr (bound [] (.err ((1#1).setWidth 24))))
    (fun t => decide (t.st = .fault ∧ t.err = .io)) (by decide)
  obtain ⟨u, h3, h4⟩ := exists_next (o := exec (.read 1) (opened [] (.err ((0xFFFFFF#24).setWidth 24))))
    (fun t => decide (t.st = .fault ∧ t.err = .io)) (by decide)
  exact ⟨⟨t, rfl, h1, h2⟩, ⟨u, by decide, h3, h4⟩⟩

/-- Every clause. -/
theorem witness_ReadBeforeInitOrAfterFault :
    State.reset.st = .uninit ∧ ({ failed with err := .format }.st = .fault ∧ { failed with err := .format }.err = .format)
      ∧ (failed.st = .fault ∧ failed.err = .data)
      ∧ ({ failed with err := .io }.st = .fault ∧ { failed with err := .io }.err = .io) := by
  refine ⟨rfl, ⟨rfl, rfl⟩, ⟨rfl, rfl⟩, ⟨rfl, rfl⟩⟩

theorem witness_ReadAfterEndOfStream : ended.HostInv ∧ ended.st = .eos := ⟨ended_hostInv, rfl⟩

theorem witness_ReadIsDecodeStepsThenDelivery :
    (mid.st = .ready ∧ ∃ t, exec (.read 100) mid = .next t) ∧ (ended.st = .eos ∧ ∃ t, exec (.read 1) ended = .next t) :=
  ⟨⟨rfl, completes (by decide)⟩, rfl, completes (by decide)⟩

/-- Each of the three conditions on its own. -/
theorem witness_ReadCompletes :
    (mid.Inv ∧ mid.st = .ready ∧ mid.src.term ≠ .silent)
      ∧ (waiting.Inv ∧ waiting.st = .ready ∧ (1#24).toNat ≤ waiting.outQ.length)
      ∧ ({ ended with src := waiting.src }.Inv ∧ { ended with src := waiting.src }.st = .eos) :=
  ⟨⟨mid_inv, by decide⟩, ⟨waiting_inv, by decide⟩, ended_inv.congr rfl rfl rfl rfl rfl rfl rfl rfl rfl, rfl⟩

/-- Both alternatives. -/
theorem witness_ReadStopsOnlyOnASilentSource :
    (mid.Inv ∧ ∃ t, exec (.read 100) mid = .next t) ∧ (waiting.Inv ∧ exec (.read 100) waiting = .fault .sourceSilent) :=
  ⟨⟨mid_inv, completes (by decide)⟩, waiting_inv, rfl⟩

theorem witness_ShortReadMeansTheEnd :
    mid.HostInv ∧ mid.st = .ready ∧ 100#24 ≠ 0#24 ∧ ∃ t u, exec (.read 100#24) mid = .next t ∧ ReadRun (100#24).toNat mid u := by
  obtain ⟨t, ht⟩ := completes (o := exec (.read 100#24) mid) (by decide)
  obtain ⟨u, hu⟩ := completes (o := readLoop (mid.readFuel (100#24).toNat) (100#24).toNat mid) (by decide)
  exact ⟨mid_hostInv, rfl, by decide, t, u, ht, (readLoop_fuel _ _ _).1 hu⟩

theorem witness_ReadDeliversBytesBeforeAnError :
    failing.Inv ∧ failing.st = .ready
      ∧ ∃ t, exec (.read 100) failing = .next t ∧ decide (t.st = .fault ∧ t.lastData = [0x62]) = true :=
  ⟨failing_inv, rfl, exists_next _ (by decide)⟩

theorem witness_ReadSizeIndependence :
    ∃ t t', (∀ k ∈ [1#24, 1#24], k ≠ 0#24) ∧ (∀ k ∈ [100#24], k ≠ 0#24)
      ∧ readUntilShort [1, 1] failing = some t ∧ readUntilShort [100] failing = some t' := by
  obtain ⟨u, hu, h1⟩ := exists_next (o := exec (.read 1#24) failing)
    (fun u => u.lastData.length == 1 && (nextOf (exec (.read 1#24) u)).any (fun t => t.lastData.length == 0)) (by decide)
  simp only [Bool.and_eq_true, beq_iff_eq] at h1
  obtain ⟨t, ht, h2⟩ := exists_next _ h1.2
  obtain ⟨t', ht', h3⟩ := exists_next (o := exec (.read 100#24) failing) (fun t => t.lastData.length == 1) (by decide)
  simp only [beq_iff_eq] at h2 h3
  exact ⟨t, t', by simp, by simp, by simp [readUntilShort, hu, h1.1, ht, h2], by simp [readUntilShort, ht', h3]⟩

theorem witness_StatusWord2Fields : mid.HostInv := mid_hostInv

theorem witness_OneAnswerPerCommand : (Instr.read 100).isHost = true ∧ ∃ t, exec (.read 100) mid = .next t :=
  ⟨rfl, completes (by decide)⟩

/-! #### Faults and the realisation -/

/-- A host command and a code. -/
theorem witness_FaultIsSticky :
    failed.st = .fault ∧ (Instr.read 5).isHost = true ∧ (Instr.lit 0x61).isCode = true
      ∧ Instr.read 5 ≠ .initRaw ∧ Instr.read 5 ≠ .initHdr ∧ Instr.read 5 ≠ .release := by decide

/-- A data error and an I/O error. -/
theorem witness_FaultingDecodeStepIsPrecise :
    (∃ t, advance (opened [0x2C, 0x01]) = .next t ∧ decide (t.st = .fault ∧ t.err = .data) = true)
      ∧ ∃ t, advance failing = .next t ∧ decide (t.st = .fault ∧ t.err = .io) = true :=
  ⟨exists_next _ (by decide), exists_next _ (by decide)⟩

/-- The pairs of `mid`'s entries: "ab" from `'a'`, "ba" from `'b'`. -/
theorem mid_chain : Chain.represents [(0x61, 0x62), (0x62, 0x61)] mid := by
  refine ⟨?_, rfl, fun c hc => ?_⟩
  · intro i p x h
    match i, h with
    | 0, h => cases h; decide
    | 1, h => cases h; decide
    | i + 2, h => simp at h
  · have hc : c < 259 := hc
    by_cases h1 : c ≤ 255
    · simp [Memory.read, Chain.materialise, Chain.walk, h1]
    · have : c = 256 ∨ c = 257 ∨ c = 258 := by omega
      rcases this with rfl | rfl | rfl <;> decide

theorem opened_chain : (opened []).Inv ∧ Chain.represents [] (opened []) := by
  refine ⟨State.Inv.base rfl rfl rfl rfl (by decide) (by decide) (fun _ => ⟨rfl, rfl⟩) (fun h => by cases h),
    fun i p x h => by simp at h, rfl, fun c hc => ?_⟩
  have hc : c < 257 := hc
  by_cases h1 : c ≤ 255
  · simp [Memory.read, Chain.materialise, Chain.walk, h1]
  · have : c = 256 := by omega
    subst this; decide

/-- A code that inserts, and the first code of an epoch, which does not. -/
theorem witness_StatusWord0Fields : mid.Inv := mid_inv

theorem witness_ParentChainRefinesTheDictionary :
    (mid.Inv ∧ Chain.represents [(0x61, 0x62), (0x62, 0x61)] mid ∧ (Instr.lit 0x62).resolves = true
        ∧ (∃ t, exec (.lit 0x62) mid = .next t) ∧ mid.prev ≠ [] ∧ mid.nextCode.toNat < 65536
        ∧ mid.dict.read (257#16).toNat = some mid.prev)
      ∧ ((opened []).Inv ∧ Chain.represents [] (opened []) ∧ (Instr.lit 0x62).resolves = true ∧ ∃ t, exec (.lit 0x62) (opened []) = .next t) :=
  ⟨⟨mid_inv, mid_chain, rfl, completes (by decide), by decide, by decide, by decide⟩, opened_chain.1, opened_chain.2, rfl,
    completes (by decide)⟩

/-- Each event on its own; INIT HDR both opening the stream and faulting. -/
theorem witness_EmptyChainRepresentsReset :
    (∃ t, exec .clear mid = .next t) ∧ (∃ t, exec .initRaw mid = .next t) ∧ (∃ t, exec .release mid = .next t)
      ∧ (∃ t, exec .initHdr { mid with src := ⟨[0x1F, 0x9D, 0x90], .eof, 0, 0⟩ } = .next t ∧ t.st = .ready)
      ∧ ∃ t, exec .initHdr { mid with src := ⟨[0x1F], .eof, 0, 0⟩ } = .next t ∧ t.st = .fault :=
  ⟨⟨_, rfl⟩, ⟨_, rfl⟩, ⟨_, rfl⟩, ⟨_, rfl, rfl⟩, ⟨_, rfl, rfl⟩⟩

theorem witness_PrevAndOutqHaveExactRealisations : mid.HostInv := mid_hostInv

end Sys2Proof.Tests
end

section
/-! The fields of the status words (spec/10_state.md R32 to R34). A status word is read as a number, the sum of its
fields at their places, and each field is a digit of that number. -/

namespace Sys2Proof.Machine

/-! ### Packing a field above the ones already there -/

/-- A field placed above everything in `low` adds to it. -/
theorem toNat_or_field {n : Nat} (low : BitVec 32) (x : BitVec n) (k : Nat) (hlow : low.toNat < 2 ^ k)
    (hfit : k + n ≤ 32) : (low ||| (x.setWidth 32 <<< k)).toNat = low.toNat + 2 ^ k * x.toNat := by
  have hx : x.toNat * 2 ^ k < 2 ^ 32 := calc
    x.toNat * 2 ^ k < 2 ^ n * 2 ^ k := Nat.mul_lt_mul_of_pos_right x.isLt (Nat.two_pow_pos k)
    _ = 2 ^ (k + n) := by rw [Nat.pow_add, Nat.mul_comm]
    _ ≤ 2 ^ 32 := Nat.pow_le_pow_right (by decide) hfit
  have hx32 : x.toNat < 2 ^ 32 := Nat.lt_of_lt_of_le x.isLt (Nat.pow_le_pow_right (by decide) (by omega))
  rw [BitVec.toNat_or, BitVec.toNat_shiftLeft, BitVec.toNat_setWidth, Nat.mod_eq_of_lt hx32, Nat.shiftLeft_eq,
    Nat.mod_eq_of_lt hx, Nat.or_comm, Nat.mul_comm x.toNat, ← Nat.two_pow_add_eq_or_of_lt hlow, Nat.add_comm]

/-- A field holds `x` when that digit of the word, read as a number, is `x`. -/
theorem extractLsb'_eq_of_toNat {m n : Nat} {w : BitVec m} {lo : Nat} {x : BitVec n}
    (h : w.toNat / 2 ^ lo % 2 ^ n = x.toNat) : w.extractLsb' lo n = x :=
  BitVec.eq_of_toNat_eq ((extract_toNat w lo n).trans h)

/-! ### The encodings of ST and ERR (R23, R24) -/

theorem Phase.bits_inj {p q : Phase} : p.bits = q.bits ↔ p = q := by
  cases p <;> cases q <;> decide

theorem ErrKind.bits_inj {e f : ErrKind} : e.bits = f.bits ↔ e = f := by
  cases e <;> cases f <;> decide

/-! ### The status words as numbers, and their fields -/

section
variable (s : State)

theorem State.prevValid_iff : s.prevValid = true ↔ s.prev ≠ [] := by
  simp [State.prevValid]

theorem State.w0_toNat :
    s.w0.toNat = s.st.bits.toNat + 2 ^ 2 * s.err.bits.toNat + 2 ^ 4 * s.codeSize.toNat + 2 ^ 9 * s.nextCode.toNat
      + 2 ^ 26 * (BitVec.ofBool s.prevValid).toNat := by
  have h0 : (s.st.bits.setWidth 32).toNat = s.st.bits.toNat := BitVec.toNat_setWidth_of_le (by decide)
  have h1 := toNat_or_field (s.st.bits.setWidth 32) s.err.bits 2 (by omega) (by decide)
  have h2 := toNat_or_field _ s.codeSize 4 (by rw [h1]; omega) (by decide)
  have h3 := toNat_or_field _ s.nextCode 9 (by rw [h2]; omega) (by decide)
  have h4 := toNat_or_field _ (BitVec.ofBool s.prevValid) 26 (by rw [h3]; omega) (by decide)
  rw [State.w0, h4, h3, h2, h1, h0]

theorem State.w2_toNat : s.w2.toNat = s.outQ.length % 2 ^ 17 + 2 ^ 17 * s.bitCnt.toNat := by
  have h0 : ((BitVec.ofNat 17 s.outQ.length).setWidth 32).toNat = s.outQ.length % 2 ^ 17 := by
    rw [BitVec.toNat_setWidth_of_le (by decide), BitVec.toNat_ofNat]
  have h1 := toNat_or_field ((BitVec.ofNat 17 s.outQ.length).setWidth 32) s.bitCnt 17 (by rw [h0]; omega) (by decide)
  rw [State.w2, h1, h0]

/-- R32: ST. -/
theorem State.w0_st : s.w0.extractLsb' 0 2 = s.st.bits :=
  extractLsb'_eq_of_toNat (by rw [s.w0_toNat]; omega)

/-- R32: ERR. -/
theorem State.w0_err : s.w0.extractLsb' 2 2 = s.err.bits :=
  extractLsb'_eq_of_toNat (by rw [s.w0_toNat]; omega)

/-- R32: CODESIZE. -/
theorem State.w0_codeSize : s.w0.extractLsb' 4 5 = s.codeSize :=
  extractLsb'_eq_of_toNat (by rw [s.w0_toNat]; omega)

/-- R32: NEXT_CODE. -/
theorem State.w0_nextCode : s.w0.extractLsb' 9 17 = s.nextCode :=
  extractLsb'_eq_of_toNat (by rw [s.w0_toNat]; omega)

/-- R32: PREV_VALID. -/
theorem State.w0_prevValid : s.w0.extractLsb' 26 1 = BitVec.ofBool s.prevValid :=
  extractLsb'_eq_of_toNat (by rw [s.w0_toNat]; omega)

/-- R32: the reserved bits. -/
theorem State.w0_reserved : s.w0.extractLsb' 27 5 = 0#5 :=
  extractLsb'_eq_of_toNat (by rw [s.w0_toNat, BitVec.toNat_zero]; omega)

end

/-! ### The lengths of the sequences (R153 items 2 and 3, R192) -/

section
variable {s : State}

/-- R27: a literal entry is one byte. -/
theorem Memory.read_literal_length {d : Memory} {c : Nat} {seq : ByteSeq} (hc : c ≤ 255) (hr : d.read c = some seq) :
    seq.length = 1 := by
  have hseq : [BitVec.ofNat 8 c] = seq := by simpa [Memory.read, hc] using hr
  rw [← hseq, List.length_singleton]

/-- R153 item 2: an entry is one byte longer than some earlier one, so its index bounds its length. -/
theorem State.Inv.entry_length (h : s.Inv) (c : Nat) (seq : ByteSeq) (hc : 257 ≤ c) (hr : s.dict.read c = some seq) :
    2 ≤ seq.length ∧ seq.length ≤ c - 255 := by
  induction c using Nat.strong_induction_on generalizing seq with
  | _ c ih =>
    rw [Memory.read_dynamic _ _ hc] at hr
    obtain ⟨hne, p, hearlier, hp, hparent⟩ := h.grown (c, seq) (Memory.dynamic_mem _ _ _ hr)
    dsimp only at hne hearlier hparent
    have hpos : 0 < seq.length := List.length_pos_iff.2 hne
    have hdrop : seq.dropLast.length = seq.length - 1 := List.length_dropLast
    by_cases hlit : p ≤ 255
    · have := Memory.read_literal_length hlit hparent
      omega
    · have := ih p hearlier _ (by omega) hparent
      omega

/-- R28: PREV is the sequence of an entry, so it has at most 65535 - 255 bytes. -/
theorem State.Inv.prev_length (h : s.Inv) : s.prev.length ≤ 65280 := by
  by_cases hprev : s.prev = []
  · simp [hprev]
  obtain ⟨p, hlt, hp, hr⟩ := h.prev hprev
  have hhigh := h.nextHigh
  by_cases hlit : p ≤ 255
  · have := Memory.read_literal_length hlit hr
    omega
  · have := (h.entry_length p _ (by omega) hr).2
    omega

/-- R192: between host commands OUTQ is shorter than the longest PREV. -/
theorem State.HostInv.outQ_length (h : s.HostInv) : s.outQ.length ≤ 65279 := by
  obtain hempty | ⟨front, hfront, hsuffix⟩ := h.out
  · simp [hempty]
  · have hprev := h.inv.prev_length
    have hpos := List.length_pos_iff.2 hfront
    rw [hsuffix, List.length_append] at hprev
    omega

theorem State.Inv.codeSize_bounds (h : s.Inv) : 9 ≤ s.codeSize.toNat ∧ s.codeSize.toNat ≤ 16 := by
  have hlog : 8 ≤ Nat.log2 s.nextCode.toNat :=
    (Nat.le_log2 (by have := h.nextLow; omega)).2 (Nat.le_trans (by decide) h.nextLow)
  rw [h.width, bitlen]
  omega

end

/-! ### The obligations -/

/-- Settles O51: each field is read off W0 as a number, and the ranges are those of the invariant. -/
theorem statusWord0Fields : Obligations.StatusWord0Fields := by
  intro s
  rw [s.w0_st, s.w0_err, s.w0_codeSize, s.w0_nextCode, s.w0_prevValid]
  refine ⟨⟨Phase.bits_inj (q := .uninit), Phase.bits_inj (q := .ready), Phase.bits_inj (q := .eos),
      Phase.bits_inj (q := .fault)⟩,
    ⟨ErrKind.bits_inj (f := .none), ErrKind.bits_inj (f := .format), ErrKind.bits_inj (f := .data),
      ErrKind.bits_inj (f := .io)⟩, rfl, rfl, ?_, s.w0_reserved, fun h => ⟨h.codeSize_bounds, h.nextLow, h.nextHigh⟩⟩
  rw [← s.prevValid_iff]
  cases s.prevValid <;> decide

/-- Settles O52: W1 is ERRINFO, extended by zeros. -/
theorem statusWord1Fields : Obligations.StatusWord1Fields := by
  intro s
  have hw : s.w1.toNat = s.errInfo.toNat := BitVec.toNat_setWidth_of_le (by decide)
  constructor <;> apply extractLsb'_eq_of_toNat <;> rw [hw]
  · omega
  · rw [BitVec.toNat_zero]; omega

/-- Settles O53: OUTQ is a proper suffix of PREV, so its length fits the 17 bits of OUT_PENDING. -/
theorem statusWord2Fields : Obligations.StatusWord2Fields := by
  intro s h
  have hlen := h.outQ_length
  refine ⟨?_, hlen, ?_, ?_⟩
  · rw [extract_toNat, s.w2_toNat]; omega
  · exact extractLsb'_eq_of_toNat (by rw [s.w2_toNat]; omega)
  · exact extractLsb'_eq_of_toNat (by rw [s.w2_toNat, BitVec.toNat_zero]; omega)

end Sys2Proof.Machine
end

section
/-! One request to the byte source (spec/20_memory.md R61, R62, R66): what it answers, and the source after it. -/

namespace Sys2Proof.Machine

/-! ### The pull, by what the source still has -/

theorem Source.pull_byte {q : Source} {b : Byte} {rest : ByteSeq} (hbytes : q.bytes = b :: rest) :
    q.pull = some (.byte b, ⟨rest, q.term, q.pulls + 1, q.taken + 1⟩) := by
  simp [Source.pull, hbytes]

theorem Source.pull_eof {q : Source} (hbytes : q.bytes = []) (hterm : q.term = .eof) :
    q.pull = some (.eof, ⟨[], q.term, q.pulls + 1, q.taken⟩) := by
  simp [Source.pull, hbytes, hterm]

theorem Source.pull_err {q : Source} {e : BitVec 24} (hbytes : q.bytes = []) (hterm : q.term = .err e) :
    q.pull = some (.err e, ⟨[], q.term, q.pulls + 1, q.taken⟩) := by
  simp [Source.pull, hbytes, hterm]

/-! ### SRC.PULL over the pull -/

/-- R61: the engine's only changes are the source pulled and the answer appended. -/
theorem exec_srcPull_of_pull {s : State} {r : SrcResp} {q : Source} (hpull : s.src.pull = some (r, q)) :
    exec .srcPull s = .next { s with src := q, outbox := s.outbox ++ [.source r] } := by
  simp [exec, execSrcPull, hpull, State.answer]

/-! ### The obligation -/

/-- Settles O36: the pull is read off the bytes left, then off the terminator. -/
theorem sourcePullAnswersOnce : Obligations.SourcePullAnswersOnce := by
  intro s
  constructor
  · intro b rest hbytes
    exact exec_srcPull_of_pull (Source.pull_byte hbytes)
  · rintro r (⟨hterm, rfl⟩ | ⟨e, hterm, rfl⟩) hbytes
    · exact exec_srcPull_of_pull (Source.pull_eof hbytes hterm)
    · exact exec_srcPull_of_pull (Source.pull_err hbytes hterm)

end Sys2Proof.Machine
end

section
/-! The classification of a command word and of a code, row by row (spec/30_encoding.md R103, R104). -/

namespace Sys2Proof

/-! ### The rows of R104 that have operands -/

section
variable {w : BitVec 32}

theorem and_fullMask (w : BitVec 32) : w &&& 0xFFFFFFFF#32 = w := BitVec.and_allOnes

/-- READ's operand is the word modulo 2 ^ 24. -/
theorem readK_eq_ofNat (w : BitVec 32) : readK w = BitVec.ofNat 24 (w.toNat % 2 ^ 24) :=
  BitVec.eq_of_toNat_eq (by rw [readK, extract_toNat, BitVec.toNat_ofNat]; omega)

/-- READ's operand under its mask is zero as K is. -/
theorem and_kMask_ne_zero : w &&& 0x00FFFFFF#32 ≠ 0#32 ↔ w.toNat % 2 ^ 24 ≠ 0 := by
  rw [ne_eq, eq_iff_toNat, and_kMask, BitVec.toNat_zero]

theorem decodeCmd_read (hop : w.toNat / 2 ^ 24 = 0x20) (hk : w.toNat % 2 ^ 24 ≠ 0) :
    decodeCmd w = .read (readK w) := by
  obtain ⟨h, -⟩ | ⟨h, -⟩ | ⟨-, -, hread⟩ | ⟨h, -⟩ | ⟨h, -⟩ | ⟨-, -, hno, -⟩ := decodeCmd_cases w
  · omega
  · omega
  · exact hread
  · omega
  · omega
  · exact absurd ⟨hop, hk⟩ hno

theorem decodeCmd_illegalCmd (hraw : w ≠ 0x10000000#32) (hhdr : w ≠ 0x10000001#32)
    (hread : ¬ (w.toNat / 2 ^ 24 = 0x20 ∧ w.toNat % 2 ^ 24 ≠ 0)) (hrelease : w ≠ 0x30000000#32)
    (hstatus : w ≠ 0x40000000#32) : decodeCmd w = .illegalCmd w := by
  obtain ⟨h, -⟩ | ⟨h, -⟩ | ⟨hop, hk, -⟩ | ⟨h, -⟩ | ⟨h, -⟩ | ⟨-, -, -, -, -, hill⟩ := decodeCmd_cases w
  · exact absurd (BitVec.eq_of_toNat_eq h) hraw
  · exact absurd (BitVec.eq_of_toNat_eq h) hhdr
  · exact absurd ⟨hop, hk⟩ hread
  · exact absurd (BitVec.eq_of_toNat_eq h) hrelease
  · exact absurd (BitVec.eq_of_toNat_eq h) hstatus
  · exact hill

end

/-! ### The obligations -/

/-- Settles O8: a full mask names a single word, READ's two masks are its opcode byte and K as numbers, and the last
row is what the others leave. -/
theorem commandWordClassification : Obligations.CommandWordClassification := by
  intro w
  simp only [and_fullMask, and_readMask, and_kMask_ne_zero]
  refine ⟨?initRaw, ?initHdr, ?read, ?release, ?status, decodeCmd_illegalCmd⟩
  case read =>
    intro hop hk
    rw [decodeCmd_read hop hk, readK_eq_ofNat]
  all_goals
    rintro rfl
    rfl

/-- Settles O9: NEXT_CODE is at least 257, so the last two rows are reached only by codes from 257 on, above CLEAR and
the literals. -/
theorem codeClassification : Obligations.CodeClassification := by
  intro nc pe code hnc
  refine ⟨decodeCode_clear _ code, fun hlit => ?_, decodeCode_dict ⟨nc, pe⟩ code, fun hcode hprev => ?_,
    fun hcode => ?_⟩
  · rw [decodeCode_lit _ code hlit, BitVec.ofNat_toNat]
  · exact decodeCode_kwkwk _ code (hcode ▸ hnc) hcode hprev
  · have hhigh : 257 ≤ code.toNat := by omega
    exact decodeCode_illegal _ code hhigh hcode

end Sys2Proof
end

section
/-! The bit reader's calls as instructions, and a row of them (spec/40_bit_reader.md R123, R126, R127, R130). -/

namespace Sys2Proof.Machine

/-! ### The bits ahead -/

/-- The bits `BR.get` has yet to return, oldest first: BITQ, then the bytes still to come (R29, R63). -/
def State.stream (s : State) : List Bool := s.bitQ ++ streamBits s.src.bytes

@[simp] theorem State.stream_length (s : State) : s.stream.length = s.bitsLeft := by
  simp [State.stream, State.bitQ, State.bitsLeft]

@[simp] theorem State.answer_stream (s : State) (r : Response) : (s.answer r).stream = s.stream := rfl

@[simp] theorem State.answer_bitsLeft (s : State) (r : Response) : (s.answer r).bitsLeft = s.bitsLeft := rfl

/-! ### One call -/

section
variable {n m : Nat} {s t : State} {v : BitVec 64}

/-- R123: the number returned has the oldest bits of the stream as its bits, oldest least significant. -/
theorem BrValue.toNat_eq (h : BrValue n s t v m) (hcanon : s.bitBuf.toNat < 2 ^ s.bitCnt.toNat) :
    v.toNat = valueOfBits (s.stream.take n) := by
  obtain ⟨-, hbits, -⟩ := h.bits hcanon
  calc v.toNat = v.toNat % 2 ^ n := (Nat.mod_eq_of_lt h.bound).symm
    _ = valueOfBits (bitsOf v.toNat n) := (valueOfBits_bitsOf _ _).symm
    _ = valueOfBits (s.stream.take n) := congrArg valueOfBits hbits

/-- R123: the bits returned, then the bits left, are the stream as it was. -/
theorem BrValue.stream_eq (h : BrValue n s t v m) (hcanon : s.bitBuf.toNat < 2 ^ s.bitCnt.toNat) :
    s.stream = bitsOf v.toNat n ++ t.stream := by
  obtain ⟨-, hbits, hrest⟩ := h.bits hcanon
  calc s.stream = s.stream.take n ++ s.stream.drop n := (List.take_append_drop n _).symm
    _ = bitsOf v.toNat n ++ t.stream := congrArg₂ (· ++ ·) hbits.symm hrest.symm

/-- R125: a successful call pulls the shortfall in bits, rounded up to bytes. -/
theorem BrValue.pulled (h : BrValue n s t v m) : m = (n - s.bitCnt.toNat + 7) / 8 := by
  have hcnt := h.cnt
  have hlazy := h.lazy
  omega

theorem State.brGet_of_enough (hn : n ≤ 64) (henough : n ≤ s.bitsLeft) :
    ∃ v t m, s.brGet n = some (.value v, t) ∧ BrValue n s t v m := by
  obtain ⟨-, v, t, hget⟩ | ⟨hfew, -⟩ | ⟨hfew, -⟩ | ⟨hfew, -⟩ := s.brGet_total n hn
  · obtain ⟨m, hvalue⟩ := s.brGet_value n hn t v hget
    exact ⟨v, t, m, hget, hvalue⟩
  all_goals exact absurd henough (by omega)

/-- R124: too few bits before the source's end. -/
theorem State.brGet_of_ended (hn : n ≤ 64) (hfew : s.bitsLeft < n) (hterm : s.src.term = .eof) :
    ∃ t, s.brGet n = some (.noData, t) ∧ BrShort n s t := by
  obtain ⟨henough, -⟩ | ⟨-, -, t, hget⟩ | ⟨-, e, -, herr, -⟩ | ⟨-, hsilent, -⟩ := s.brGet_total n hn
  · omega
  · obtain ⟨hshort, -⟩ := s.brGet_short n hn t _ hget (by simp)
    exact ⟨t, hget, hshort⟩
  · simp [hterm] at herr
  · simp [hterm] at hsilent

/-- The pull loop pulls nothing while BITQ holds enough (R121). -/
theorem State.fill_of_buffered (henough : n ≤ s.bitCnt.toNat) :
    s.fill n = ⟨.enough, s.bitBuf, s.bitCnt, s.src⟩ := by
  rcases hsrc : s.src with ⟨bytes, term, pulls, taken⟩
  cases bytes <;> simp [State.fill, Machine.fill, hsrc, henough]

/-- R126 for the reader's operation. -/
theorem State.brGet_zero (s : State) : s.brGet 0 = some (.value 0#64, s) := by
  simp [State.brGet, State.fill_of_buffered (Nat.zero_le s.bitCnt.toNat), Nat.mod_one]

end

/-! ### BR.GET over the operation -/

section
variable {n : BitVec 7} {s t : State} {r : BrResult}

theorem exec_brGet_of_brGet (hn : n.toNat ≤ 64) (hget : s.brGet n.toNat = some (r, t)) :
    exec (.brGet n) s = .next (t.answer (.bits r)) := by
  simp [exec, execBrGet, Config.brMaxWidth, hn, hget]

theorem exec_brGet_of_wide (hn : 64 < n.toNat) : exec (.brGet n) s = .refused .brWidth :=
  if_neg (Nat.not_le.2 hn)

theorem decodeBrReq_of_wide (hn : 64 < n.toNat) : decodeBrReq n = .brGetRefused n :=
  if_neg (Nat.not_le.2 hn)

end

/-! ### A row of calls (R130) -/

/-- One `BR.get(n)` for each of `vals` leads from `s` to `t`, and they answer `vals`: the bits returned, in order, then
the bits left are the stream as it was. -/
structure BrValues (n : BitVec 7) (s t : State) (vals : List (BitVec 64)) : Prop where
  run    : runAll (List.replicate vals.length (.brGet n)) s = .next t
  outbox : t.outbox = s.outbox ++ vals.map (fun v => .bits (.value v))
  term   : t.src.term = s.src.term
  stream : s.stream = vals.flatMap (fun v => bitsOf v.toNat n.toNat) ++ t.stream

section
variable {n : BitVec 7} {s t u : State} {v : BitVec 64} {vals : List (BitVec 64)} {m : Nat}

theorem BrValues.nil (n : BitVec 7) (s : State) : BrValues n s s [] := ⟨rfl, by simp, rfl, rfl⟩

theorem BrValues.cons (hn : n.toNat ≤ 64) (hcanon : s.bitBuf.toNat < 2 ^ s.bitCnt.toNat)
    (hget : s.brGet n.toNat = some (.value v, t)) (hvalue : BrValue n.toNat s t v m)
    (hrest : BrValues n (t.answer (.bits (.value v))) u vals) : BrValues n s u (v :: vals) where
  run := by
    rw [List.length_cons, List.replicate_succ, runAll, exec_brGet_of_brGet hn hget]
    exact hrest.run
  outbox := by simp [hrest.outbox, hvalue.keeps.outbox]
  term := hrest.term.trans hvalue.keeps.term
  stream := by
    have htail := hrest.stream
    rw [State.answer_stream] at htail
    rw [hvalue.stream_eq hcanon, htail, List.flatMap_cons, List.append_assoc]

theorem flatMap_bitsOf_length (n : Nat) (vals : List (BitVec 64)) :
    (vals.flatMap (fun v => bitsOf v.toNat n)).length = n * vals.length := by
  simp [List.length_flatMap, Nat.mul_comm]

/-- The values' bits are the stream's first. -/
theorem BrValues.bits (h : BrValues n s t vals) :
    vals.flatMap (fun v => bitsOf v.toNat n.toNat) = s.stream.take (n.toNat * vals.length) := by
  rw [h.stream, List.take_left' (flatMap_bitsOf_length _ _)]

theorem BrValues.bitsLeft (h : BrValues n s t vals) : t.bitsLeft = s.bitsLeft - n.toNat * vals.length := by
  rw [← s.stream_length, h.stream, List.length_append, flatMap_bitsOf_length, t.stream_length, Nat.add_sub_cancel_left]

end

/-- As many calls as there are bits for all answer a value each. -/
theorem exists_brValues (n : BitVec 7) (hn : n.toNat ≤ 64) (k : Nat) :
    ∀ s : State, s.bitBuf.toNat < 2 ^ s.bitCnt.toNat → k * n.toNat ≤ s.bitsLeft →
      ∃ t vals, vals.length = k ∧ BrValues n s t vals := by
  induction k with
  | zero => exact fun s _ _ => ⟨s, [], rfl, .nil n s⟩
  | succ k ih =>
    intro s hcanon hleft
    rw [Nat.succ_mul] at hleft
    obtain ⟨v, t, m, hget, hvalue⟩ := s.brGet_of_enough hn (Nat.le_trans (Nat.le_add_left _ _) hleft)
    obtain ⟨hcanon', -⟩ := hvalue.bits hcanon
    have hleft' : k * n.toNat ≤ t.bitsLeft := by
      have := hvalue.bitsLeft
      omega
    obtain ⟨u, vals, hlen, hrest⟩ := ih (t.answer (.bits (.value v))) hcanon' hleft'
    exact ⟨u, v :: vals, congrArg (· + 1) hlen, hrest.cons hn hcanon hget hvalue⟩

/-! ### The obligations -/

/-- Settles O27: the call returns a value since the stream has `n` bits, and the operation's laws say which, what it
pulled and what it left. -/
theorem bitReaderReturnsTheOldestBits : Obligations.BitReaderReturnsTheOldestBits := by
  intro n s hn hcanon henough
  obtain ⟨v, t, m, hget, hvalue⟩ := State.brGet_of_enough hn henough
  obtain ⟨hcanon', -, hrest⟩ := hvalue.bits hcanon
  have hkeeps := hvalue.keeps
  refine ⟨t.answer (.bits (.value v)), v, exec_brGet_of_brGet hn hget, ?_, hvalue.toNat_eq hcanon, hrest, hcanon', ?_, ?_,
    hkeeps.term, hkeeps.st, hkeeps.err, hkeeps.errInfo, hkeeps.codeSize, hkeeps.nextCode, hkeeps.dict, hkeeps.prev,
    hkeeps.outQ, hkeeps.inbox⟩
  · rw [State.answer_outbox, hkeeps.outbox]
  · rw [← hvalue.pulled]; exact hvalue.pulls
  · rw [← hvalue.pulled]; exact hvalue.bytes

/-- Settles O32: the calls that answer a value use up all but the remainder of the stream's length by `n`, which is too
few bits for the next call. -/
theorem repeatedGetReconstructsTheStream : Obligations.RepeatedGetReconstructsTheStream := by
  intro n s hpos hn hcnt hbuf hterm
  have hleft : s.bitsLeft = 8 * s.src.bytes.length := by simp [State.bitsLeft, hcnt]
  have hstream : s.stream = streamBits s.src.bytes := by simp [State.stream, State.bitQ, hcnt, bitsOf]
  obtain ⟨t, vals, hlen, hvals⟩ := exists_brValues n hn (8 * s.src.bytes.length / n.toNat) s (by simp [hcnt, hbuf])
    (hleft ▸ Nat.div_mul_le_self _ _)
  have hremain : t.bitsLeft = 8 * s.src.bytes.length - n.toNat * vals.length := hleft ▸ hvals.bitsLeft
  have hfew : t.bitsLeft < n.toNat := by
    rw [hremain, hlen, ← Nat.mod_eq_sub]
    exact Nat.mod_lt _ hpos
  obtain ⟨u, hget, hshort⟩ := State.brGet_of_ended hn hfew (hvals.term.trans hterm)
  refine ⟨t, u.answer (.bits .noData), vals, hlen, hvals.run, hvals.outbox, hstream ▸ hvals.bits,
    exec_brGet_of_brGet hn hget, ?_, hshort.cnt.trans hremain⟩
  rw [State.answer_outbox, hshort.keeps.outbox]

/-- Settles O29: with no bit asked for, the pull loop ends at once and a shift by 0 moves nothing. -/
theorem zeroWidthGetChangesNothing : Obligations.ZeroWidthGetChangesNothing :=
  fun s => exec_brGet_of_brGet (n := 0#7) (by decide) s.brGet_zero

/-- Settles O30: both rows refuse a width above 64, and CODESIZE never is one under the invariant. -/
theorem wideGetIsRefused : Obligations.WideGetIsRefused :=
  ⟨fun _ _ hn => ⟨decodeBrReq_of_wide hn, rfl, exec_brGet_of_wide hn⟩, fun _ hinv => hinv.codeSize_bounds⟩

end Sys2Proof.Machine
end

section
/-! The host commands that run no decode step (spec/42_host_commands.md R182 to R184, R189, R190): each answer and the
state it leaves. -/

namespace Sys2Proof.Machine

/-! ### Answers with no data (R99, R100) -/

theorem resp32_format : resp32 ErrKind.format.rc 0#24 = 0x00000001#32 := by decide
theorem resp32_data : resp32 ErrKind.data.rc 0#24 = 0x00000002#32 := by decide
theorem resp32_io : resp32 ErrKind.io.rc 0#24 = 0x00000003#32 := by decide
theorem resp32_notOpen : resp32 rcNotOpen 0#24 = 0x00000005#32 := by decide

theorem State.respond_eq {rc : BitVec 4} {w : BitVec 32} (s : State) (hw : resp32 rc 0#24 = w) :
    s.respond rc = { s with outbox := s.outbox ++ [.host w [] []] } := by
  rw [← hw]
  rfl

/-! ### READ with no stream open (R184) -/

theorem exec_read_uninit (k : BitVec 24) {s : State} (hst : s.st = .uninit) :
    exec (.read k) s = .next (s.respond rcNotOpen) := by
  simp only [exec, execRead, hst]

theorem exec_read_fault (k : BitVec 24) {s : State} (hst : s.st = .fault) :
    exec (.read k) s = .next (s.respond s.err.rc) := by
  simp only [exec, execRead, hst, State.respondErr]

/-! ### The obligations -/

/-- Settles O38: INIT RAW is `newStream`, which writes the second column of R36, in READY. -/
theorem initRawOpensAStream : Obligations.InitRawOpensAStream := fun _ =>
  ⟨_, rfl, rfl, rfl, rfl, rfl, rfl, Memory.read_literal _, Memory.read_clear _, Memory.read_nil, rfl, rfl, rfl, rfl,
    rfl, rfl, rfl, rfl, rfl⟩

/-- Settles O39: the header is decided by the first three bytes when they are there, and else by the terminator; each
way INIT HDR completes is `newStream` with a phase, a record and the source it left. -/
theorem initHdrChecksTheHeader : Obligations.InitHdrChecksTheHeader := by
  intro s
  refine ⟨?magic, ?wrong, ?ended, ?failed, ?reset⟩
  case magic =>
    intro rest hbytes
    exact ⟨_, (execInitHdr_full s _ _ _ rest hbytes).trans (if_pos rfl), rfl, rfl, rfl, rfl, rfl⟩
  case wrong =>
    intro a b c rest hbytes hne
    exact ⟨_, (execInitHdr_full s a b c rest hbytes).trans (if_neg hne), rfl, rfl, rfl, rfl,
      congrArg State.outbox (State.respond_eq _ resp32_format)⟩
  case ended =>
    intro hfew hterm
    have hcount : (BitVec.ofNat 24 s.src.bytes.length).toNat = s.src.bytes.length :=
      Nat.mod_eq_of_lt (Nat.lt_trans hfew (by decide))
    exact ⟨_, execInitHdr_eof s hfew hterm, rfl, rfl, hcount, rfl,
      congrArg State.outbox (State.respond_eq _ resp32_format)⟩
  case failed =>
    intro e hfew hterm
    exact ⟨_, execInitHdr_err s e hfew hterm, rfl, rfl, rfl, rfl,
      congrArg State.outbox (State.respond_eq _ resp32_io)⟩
  case reset =>
    intro t ht
    obtain ⟨q, rfl | ⟨k, info, -, -, rfl⟩⟩ := execInitHdr_next s t ht <;>
      exact ⟨rfl, rfl, Memory.read_literal _, Memory.read_clear _, Memory.read_nil, rfl, rfl, rfl, rfl, rfl⟩

/-- Settles O41: the answer's word is computed from NOT_OPEN, or from the recorded error. -/
theorem readBeforeInitOrAfterFault : Obligations.ReadBeforeInitOrAfterFault := by
  intro k s
  refine ⟨fun hst => ?_, fun hst herr => ?_, fun hst herr => ?_, fun hst herr => ?_⟩
  · rw [exec_read_uninit k hst, s.respond_eq resp32_notOpen]
  · rw [exec_read_fault k hst, s.respond_eq (herr ▸ resp32_format)]
  · rw [exec_read_fault k hst, s.respond_eq (herr ▸ resp32_data)]
  · rw [exec_read_fault k hst, s.respond_eq (herr ▸ resp32_io)]

/-- Settles O50: STATUS answers the three words of the state it leaves as it was. -/
theorem statusCompletes : Obligations.StatusCompletes := fun _ => rfl

/-- Settles O54: whatever the word, the answer is ILLEGAL_CMD and the rest stays. -/
theorem illegalCommandChangesNothing : Obligations.IllegalCommandChangesNothing := fun _ _ => rfl

end Sys2Proof.Machine
end

section
/-! READ with a stream open, as its loop of decode steps and one delivery (spec/42_host_commands.md R185, R186,
R193). -/

namespace Sys2Proof.Machine

/-- The phases in which READ runs its loop (R185). -/
def State.Open (s : State) : Prop := s.st = .ready ∨ s.st = .eos

/-- The outcome with its next state, if it has one, replaced by the state's image. -/
def mapNext (f : State → State) : Host.Outcome State Fault Refusal → Host.Outcome State Fault Refusal
  | .next s => .next (f s)
  | .fault r => .fault r
  | .refused r => .refused r

theorem mapNext_eq_next {f : State → State} {o : Host.Outcome State Fault Refusal} {t : State} :
    mapNext f o = .next t ↔ ∃ u, o = .next u ∧ t = f u := by
  cases o <;> simp [mapNext, eq_comm]

theorem exec_read_eq_mapNext (k : BitVec 24) {s : State} (hopen : s.Open) :
    exec (.read k) s = mapNext (State.deliver k.toNat) (readLoop (s.readFuel k.toNat) k.toNat s) := by
  rcases hopen with hst | hst
  all_goals
    simp only [exec, execRead, hst]
    cases readLoop (s.readFuel k.toNat) k.toNat s <;> rfl

/-- R185: in READY or EOS a READ is the loop of decode steps, then one delivery. -/
theorem exec_read_open {k : BitVec 24} {s t : State} (hopen : s.Open) :
    exec (.read k) s = .next t ↔ ∃ u, ReadRun k.toNat s u ∧ t = u.deliver k.toNat := by
  rw [exec_read_eq_mapNext k hopen, mapNext_eq_next]
  simp only [readLoop_fuel]

/-! ### The answer of a delivery (R185, R186) -/

@[simp] theorem State.lastData_deliver (s : State) (k : Nat) : (s.deliver k).lastData = s.outQ.take k := by
  simp [State.lastData]

@[simp] theorem State.lastRc_deliver (s : State) (k : Nat) : (s.deliver k).lastRc = some s.readRc := by
  simp [State.lastRc, respRc_resp32]

/-- R100: an error's result code is not OK. -/
theorem ErrKind.rc_ne_ok {e : ErrKind} (he : e ≠ .none) : e.rc ≠ 0#4 := by
  cases e with
  | none => exact absurd rfl he
  | format | data | io => decide

/-- R186: under the invariant RC tells whether the stream has failed. -/
theorem State.Inv.readRc_eq_ok {s : State} (h : s.Inv) : s.readRc = 0#4 ↔ s.st ≠ .fault := by
  unfold State.readRc
  split
  · rename_i hst
    simp [hst, ErrKind.rc_ne_ok (h.someErr hst)]
  · rename_i hst
    simp [hst, rcOk]

/-! ### The step that closes the stream queues nothing (R216) -/

theorem CodeStep.outQ_of_closed {s t : State} {i : Instr} (h : CodeStep s i t) (hclosed : t.st ≠ .ready) :
    t.outQ = s.outQ := by
  cases h with
  | clear hr => rfl
  | resolved i hi hr first rest hs => exact absurd hr (by simpa using hclosed)
  | illegal code hr => rfl

theorem Advance.outQ_of_closed {s t : State} (h : Advance s t) (hclosed : t.st ≠ .ready) : t.outQ = s.outQ := by
  cases h with
  | code v m u t hr hv ht => exact (ht.outQ_of_closed hclosed).trans hv.keeps.outQ
  | ended u hr hu => exact hu.keeps.outQ
  | failed e u hr hu he => exact hu.keeps.outQ

/-- R185: a READ that closes the stream is left with fewer bytes queued than it was asked for. -/
theorem ReadRun.short_of_closed {k : Nat} {s t : State} (h : ReadRun k s t) (hs : s.st = .ready)
    (ht : t.st ≠ .ready) : t.outQ.length < k :=
  h.induct (P := fun a => a.st ≠ .ready → a.outQ.length < k) (fun ha => absurd hs ha)
    (fun _ _ _ hk _ hadv hb => (hadv.outQ_of_closed hb).symm ▸ hk) ht

/-- R186: a READ that is left with as many bytes as it was asked for has met no error. -/
theorem ReadRun.open_of_full {k : Nat} {s t : State} (h : ReadRun k s t) (hs : s.Open) (hfull : k ≤ t.outQ.length) :
    t.Open := by
  rcases hs with hs | hs
  · rcases h.phase hs with ht | ht | ht
    · exact .inl ht
    · exact .inr ht
    · have := h.short_of_closed hs (by simp [ht])
      omega
  · rw [h.closed (by simp [hs])]
    exact .inr hs

/-! ### The obligations -/

/-- Settles O43: READ is the unbounded loop, then `deliver`, which is the update written out. -/
theorem readIsDecodeStepsThenDelivery : Obligations.ReadIsDecodeStepsThenDelivery :=
  fun _ _ _ hopen => exec_read_open hopen

/-- Settles O46: the loop ends with `k` bytes queued or the stream closed. It cannot end with both, since the step that
closes the stream queues nothing and nothing is queued once it is closed. -/
theorem shortReadMeansTheEnd : Obligations.ShortReadMeansTheEnd := by
  intro k s t hinv hopen hk hexec
  obtain ⟨u, hrun, rfl⟩ := (exec_read_open hopen).1 hexec
  have hpos : 0 < k.toNat := BitVec.toNat_pos_of_ne_zero hk
  have hphase : u.st = .ready ∨ u.st = .eos ∨ u.st = .fault := by
    rcases hopen with hs | hs
    · exact hrun.phase hs
    · rw [hrun.closed (by simp [hs])]
      exact .inr (.inl hs)
  have hshort : u.outQ.length < k.toNat ↔ u.st ≠ .ready := by
    refine ⟨fun hlt hr => hrun.done ⟨hlt, hr⟩, fun hclosed => ?_⟩
    rcases hopen with hs | hs
    · exact hrun.short_of_closed hs hclosed
    · have hended : s.st ≠ .ready := by simp [hs]
      rw [hrun.closed hended, hinv.drained hended]
      exact hpos
  constructor
  · rw [State.lastData_deliver, State.deliver_st, List.length_take, ← hshort]
    omega
  · intro u' hrun'
    rw [← hrun.det hrun', State.lastData_deliver, State.lastRc_deliver, State.deliver_st, Option.some_inj,
      (hrun.keeps_inv hinv.inv).readRc_eq_ok, List.take_eq_nil_iff, or_iff_right hpos.ne']
    constructor
    · rintro ⟨hempty, hnofault⟩
      have hclosed : u.st ≠ .ready := hshort.1 (by simpa [hempty] using hpos)
      exact ⟨(hphase.resolve_left hclosed).resolve_right hnofault, hempty⟩
    · rintro ⟨heos, hempty⟩
      exact ⟨hempty, by simp [heos]⟩

/-- Settles O47: the loop stopped short of `k` bytes, so taking `k` bytes of OUTQ takes them all and RC is that of the
error the last decode step recorded. -/
theorem readDeliversBytesBeforeAnError : Obligations.ReadDeliversBytesBeforeAnError := by
  intro k s t _ hs hexec hfault
  obtain ⟨u, hrun, rfl⟩ := (exec_read_open (.inl hs)).1 hexec
  have hu : u.st = .fault := hfault
  have hshort : u.outQ.length < k.toNat := hrun.short_of_closed hs (by simp [hu])
  have hcount : (BitVec.ofNat 24 (min u.outQ.length k.toNat)).toNat = u.outQ.length := by
    rw [BitVec.toNat_ofNat]
    omega
  have hrc : (u.err = .data ∧ u.readRc = 2#4) ∨ (u.err = .io ∧ u.readRc = 3#4) := by
    rw [State.readRc, if_pos hu]
    exact (hrun.faultErr (by simp [hs]) hu).imp (fun h => ⟨h, h ▸ rfl⟩) (fun h => ⟨h, h ▸ rfl⟩)
  refine ⟨u, resp32 u.readRc (BitVec.ofNat 24 (min u.outQ.length k.toNat)), hrun, ?_,
    List.drop_eq_nil_of_le hshort.le, ?_, hshort, ?_⟩
  · rw [State.deliver_outbox, hrun.loopKeeps.outbox, List.take_of_length_le hshort.le]
  · rwa [respCount_resp32]
  · rwa [respRc_resp32]

end Sys2Proof.Machine
end

section
/-! Read-size independence (spec/42_host_commands.md R191). A decode step reads neither OUTQ nor the answers given, so
with the bytes already delivered put back in front of OUTQ every READ goes along one fixed sequence of decode steps,
whatever its size. -/

namespace Sys2Proof.Machine

/-! ### A decode step reads neither OUTQ nor the answers given (R141) -/

/-- The same engine with bytes in front of OUTQ and other answers given. -/
def State.withOutput (front : ByteSeq) (answers : List Response) (s : State) : State :=
  { s with outQ := front ++ s.outQ, outbox := answers }

section
variable (front : ByteSeq) (answers : List Response) (s : State)

theorem State.growWidth_withOutput :
    (s.withOutput front answers).growWidth = s.growWidth.withOutput front answers := by
  simp only [State.growWidth, apply_ite (State.withOutput front answers)]
  rfl

theorem State.insert_withOutput (b : Byte) :
    (s.withOutput front answers).insert b = (s.insert b).withOutput front answers := by
  simp only [State.insert, apply_ite (State.withOutput front answers), ← State.growWidth_withOutput]
  rfl

theorem State.accept_withOutput (b : Byte) (rest : ByteSeq) :
    (s.withOutput front answers).accept b rest = (s.accept b rest).withOutput front answers := by
  rw [State.accept, State.insert_withOutput]
  simp [State.accept, State.emit, State.withOutput]

theorem State.brGet_withOutput (n : Nat) :
    (s.withOutput front answers).brGet n = (s.brGet n).map (Prod.map id (State.withOutput front answers)) := by
  have hfill : (s.withOutput front answers).fill n = s.fill n := rfl
  simp only [State.brGet, hfill]
  cases (s.fill n).stop <;> rfl

theorem runCode_withOutput (i : Instr) :
    runCode i (s.withOutput front answers) = mapNext (State.withOutput front answers) (runCode i s) := by
  have hst : (s.withOutput front answers).st = s.st := rfl
  have hnext : (s.withOutput front answers).nextCode = s.nextCode := rfl
  have hprev : (s.withOutput front answers).prev = s.prev := rfl
  have hdict : (s.withOutput front answers).dict = s.dict := rfl
  cases i with
  | clear =>
    simp only [runCode, execClear, whenReady, hst, apply_ite (mapNext _)]
    rfl
  | lit b =>
    simp only [runCode, execLit, whenReady, hst, hdict, State.accept_withOutput, apply_ite (mapNext _)]
    rcases s.dict.read b.toNat with _ | _ | ⟨first, rest⟩ <;> rfl
  | dict code =>
    simp only [runCode, execDict, whenReady, hst, hnext, hdict, State.accept_withOutput, apply_ite (mapNext _)]
    rcases s.dict.read code.toNat with _ | _ | ⟨first, rest⟩ <;> rfl
  | kwkwk code =>
    simp only [runCode, execKwkwk, whenReady, hst, hnext, hprev, State.accept_withOutput, apply_ite (mapNext _)]
    rcases s.prev with _ | ⟨first, rest⟩ <;> rfl
  | illegalCode code =>
    simp only [runCode, execIllegalCode, whenReady, hst, hnext, hprev, apply_ite (mapNext _)]
    rfl
  | initRaw | initHdr | read | release | status | illegalCmd | brGet | brGetRefused | srcPull => rfl

theorem advance_withOutput :
    advance (s.withOutput front answers) = mapNext (State.withOutput front answers) (advance s) := by
  have hst : (s.withOutput front answers).st = s.st := rfl
  have hsize : (s.withOutput front answers).codeSize = s.codeSize := rfl
  simp only [advance, State.fetchCode, hst, hsize, State.brGet_withOutput]
  by_cases hr : s.st = .ready
  · simp only [if_pos hr]
    rcases s.brGet s.codeSize.toNat with _ | ⟨v | _ | e, u⟩
    · rfl
    · exact runCode_withOutput front answers u _
    · rfl
    · rfl
  · simp only [if_neg hr]
    rfl

end

/-! ### The sequence of decode steps -/

/-- A decode step that completes, as a relation (R141). -/
def DecodeStep (s t : State) : Prop := advance s = .next t

theorem DecodeStep.rightUnique : Relator.RightUnique DecodeStep := by
  intro s t t' h h'
  exact Host.Outcome.next.inj (h.symm.trans h')

theorem DecodeStep.ready {s t : State} (h : DecodeStep s t) : s.st = .ready := by
  cases advance_next s t h with
  | code _ _ _ _ hr _ _ => exact hr
  | ended _ hr _ => exact hr
  | failed _ _ hr _ _ => exact hr

theorem DecodeStep.eq_of_closed {s t : State} (h : Relation.ReflTransGen DecodeStep s t) (hs : s.st ≠ .ready) :
    s = t := by
  rcases h.cases_head with h | ⟨u, hu, -⟩
  · exact h
  · exact absurd hu.ready hs

/-- R191: the decode steps from a state form one sequence, which ends where the stream is closed. -/
theorem DecodeStep.closed_unique {s t t' : State} (h : Relation.ReflTransGen DecodeStep s t)
    (h' : Relation.ReflTransGen DecodeStep s t') (ht : t.st ≠ .ready) (ht' : t'.st ≠ .ready) : t = t' := by
  rcases Relation.ReflTransGen.total_of_right_unique DecodeStep.rightUnique h h' with hstep | hstep
  · exact DecodeStep.eq_of_closed hstep ht
  · exact (DecodeStep.eq_of_closed hstep ht').symm

/-! ### A READ along the sequence -/

/-- The engine as if nothing had been delivered yet: every byte delivered stands in OUTQ again. -/
def State.gathered (s : State) : State := s.withOutput s.delivered []

/-- R185: a delivery moves bytes from OUTQ to the answers. -/
theorem State.gathered_deliver (s : State) (k : Nat) : (s.deliver k).gathered = s.gathered := by
  simp [State.gathered, State.withOutput, State.delivered, State.deliver, State.answer]

theorem DecodeStep.gathered {s t : State} (h : DecodeStep s t) : DecodeStep s.gathered t.gathered := by
  have hdelivered : t.delivered = s.delivered := by
    rw [State.delivered, (advance_next s t h).loopKeeps.outbox, State.delivered]
  rw [DecodeStep, State.gathered, advance_withOutput, h, State.gathered, hdelivered, mapNext]

theorem ReadRun.gathered {k : Nat} {s t : State} (h : ReadRun k s t) :
    Relation.ReflTransGen DecodeStep s.gathered t.gathered := by
  induction h with
  | stop s _ => exact .refl
  | more s u t _ _ hadv _ ih => exact .head (DecodeStep.gathered hadv) ih

/-! ### READs until one is short -/

/-- What READs from an open stream until one is short come to (R191): the end of the sequence of decode steps, with
every byte delivered and the result code that of the record. -/
structure ReadsEnd (s t : State) : Prop where
  steps   : Relation.ReflTransGen DecodeStep s.gathered t.gathered
  closed  : t.st ≠ .ready
  drained : t.outQ = []
  lastRc  : t.lastRc = some t.readRc

theorem ReadRun.readsEnd_of_short {k : Nat} {s u : State} (h : ReadRun k s u) (hshort : u.outQ.length < k) :
    ReadsEnd s (u.deliver k) where
  steps := u.gathered_deliver k ▸ h.gathered
  closed := fun hr => h.done ⟨hshort, hr⟩
  drained := List.drop_eq_nil_of_le hshort.le
  lastRc := State.lastRc_deliver u k

theorem readUntilShort_open {ks : List (BitVec 24)} {s t : State} (hopen : s.Open) (h : readUntilShort ks s = some t) :
    ReadsEnd s t := by
  induction ks generalizing s with
  | nil => cases h
  | cons k ks ih =>
    rw [readUntilShort] at h
    split at h
    · rename_i s' hexec
      obtain ⟨u, hrun, rfl⟩ := (exec_read_open hopen).1 hexec
      rw [State.lastData_deliver, List.length_take] at h
      split at h
      · cases h
        exact hrun.readsEnd_of_short (by omega)
      · have hopen' : (u.deliver k.toNat).Open := hrun.open_of_full hopen (by omega)
        obtain ⟨hsteps, hclosed, hdrained, hrc⟩ := ih hopen' h
        rw [State.gathered_deliver] at hsteps
        exact ⟨hrun.gathered.trans hsteps, hclosed, hdrained, hrc⟩
    · cases h
    · cases h

/-- R184: with no stream open the first READ is short already, whatever its size. -/
theorem readUntilShort_of_respond {rc : BitVec 4} {ks : List (BitVec 24)} {s t : State}
    (hexec : ∀ k, exec (.read k) s = .next (s.respond rc)) (hks : ∀ k ∈ ks, k ≠ 0#24)
    (h : readUntilShort ks s = some t) : t = s.respond rc := by
  cases ks with
  | nil => cases h
  | cons k ks =>
    have hshort : (s.respond rc).lastData.length < k.toNat := by
      simpa [State.lastData] using BitVec.toNat_pos_of_ne_zero (hks k (by simp))
    rw [readUntilShort, hexec] at h
    simpa [hshort, eq_comm] using h

/-- What R191 says the two hosts have in common. -/
structure SameRead (t t' : State) : Prop where
  delivered : t.delivered = t'.delivered
  lastRc    : t.lastRc = t'.lastRc
  engine    : SameEngine t t'
  src       : t.src = t'.src

theorem SameRead.refl (t : State) : SameRead t t :=
  ⟨rfl, rfl, ⟨rfl, rfl, rfl, rfl, rfl, rfl, rfl, rfl, rfl, rfl⟩, rfl⟩

theorem ReadsEnd.sameRead {s t t' : State} (h : ReadsEnd s t) (h' : ReadsEnd s t') : SameRead t t' := by
  have heq : t.gathered = t'.gathered := DecodeStep.closed_unique h.steps h'.steps h.closed h'.closed
  have field {α : Type} (f : State → α) : f t.gathered = f t'.gathered := congrArg f heq
  have hrc : t.readRc = t'.readRc := field State.readRc
  refine ⟨?_, by rw [h.lastRc, h'.lastRc, hrc], ?_, field State.src⟩
  · simpa [State.gathered, State.withOutput, h.drained, h'.drained] using field State.outQ
  · exact ⟨(field State.st).symm, (field State.err).symm, (field State.errInfo).symm, (field State.codeSize).symm,
      (field State.nextCode).symm, (field State.dict).symm, (field State.prev).symm, (field State.bitBuf).symm,
      (field State.bitCnt).symm, h'.drained.trans h.drained.symm⟩

/-! ### The obligation -/

/-- Settles O48: with a stream open both hosts reach the end of the one sequence of decode steps, with every byte
delivered; with none open both get the one answer of R184. -/
theorem readSizeIndependence : Obligations.ReadSizeIndependence := by
  intro ks ks' s t t' hks hks' ht ht'
  have of_open (hopen : s.Open) : SameRead t t' :=
    (readUntilShort_open hopen ht).sameRead (readUntilShort_open hopen ht')
  have of_respond {rc : BitVec 4} (hexec : ∀ k, exec (.read k) s = .next (s.respond rc)) : SameRead t t' := by
    rw [readUntilShort_of_respond hexec hks ht, readUntilShort_of_respond hexec hks' ht']
    exact .refl _
  obtain ⟨hdelivered, hrc, hengine, hsrc⟩ : SameRead t t' := by
    cases hst : s.st with
    | uninit => exact of_respond fun k => exec_read_uninit k hst
    | ready => exact of_open (.inl hst)
    | eos => exact of_open (.inr hst)
    | fault => exact of_respond fun k => exec_read_fault k hst
  exact ⟨hdelivered, hrc, hengine, hsrc⟩

end Sys2Proof.Machine
end

section
/-! The fault of an illegal code (spec/41_decoder_codes.md R148, spec/60_exceptions.md R212). -/

namespace Sys2Proof.Machine

/-- R148: an illegal code in READY raises a data error with the code as its record. -/
theorem execIllegalCode_ready {code : BitVec 16} {s : State} (hr : s.st = .ready) (hlow : 257 ≤ code.toNat)
    (hill : s.nextCode.toNat < code.toNat ∨ (code.toNat = s.nextCode.toNat ∧ s.prev = [])) :
    execIllegalCode code s = .next (s.raise .data (code.setWidth 24)) := by
  rw [execIllegalCode, whenReady, if_pos hr]
  exact if_pos ⟨hlow, hill⟩

/-- Settles O22: the state the instruction answers is the raised one, which differs in ST, ERR and ERRINFO alone; the
number of a code, taken at 24 bits, is the code extended by zeros. -/
theorem illegalCodeRaisesDataError : Obligations.IllegalCodeRaisesDataError := by
  intro code s hr hlow hill
  rw [BitVec.ofNat_toNat, exec_code _ rfl]
  exact execIllegalCode_ready hr hlow hill

end Sys2Proof.Machine
end

section
/-! The dictionary reset at power-on, RELEASE and CLEAR, and the two ends of an epoch: its first code, before any
insertion, and the full dictionary, after the last one (spec/70_reset_and_hazards.md R241, R243, R249, R250). -/

namespace Sys2Proof.Machine

variable {s t : State}

/-! ### The resets -/

theorem State.atPowerOn_powerOn (s : State) : s.powerOn.AtPowerOn :=
  ⟨rfl, rfl, rfl, rfl, rfl, Memory.read_literal _, Memory.read_clear _, Memory.read_nil, rfl, rfl, rfl, rfl⟩

/-- R188: answering RELEASE writes no element of R20. -/
theorem State.AtPowerOn.respond (h : s.AtPowerOn) (rc : BitVec 4) : (s.respond rc).AtPowerOn := { h with }

theorem exec_clear_ready (hr : s.st = .ready) : exec .clear s = .next s.resetDict := if_pos hr

/-- `reset_dict()` writes CODESIZE, NEXT_CODE, DICT and PREV alone (R140). -/
theorem State.resetDict_keepsRest (s : State) : KeepsRest s s.resetDict := ⟨rfl, rfl, rfl, rfl, rfl, rfl, rfl, rfl⟩

/-! ### Codes that insert nothing (R149, R156) -/

/-- With PREV empty or the dictionary full, all a resolved code does is to set PREV and emit. -/
theorem State.accept_eq_emit (s : State) (first : Byte) (rest : ByteSeq)
    (hkept : s.prev = [] ∨ 65536 ≤ s.nextCode.toNat) : s.accept first rest = s.emit (first :: rest) :=
  congrArg (State.emit (first :: rest)) (s.insert_kept first hkept)

/-- With NEXT_CODE above every code, no row of R103 below DICT is reached. -/
theorem decodeCode_of_full {ctx : DecodeCtx} (hfull : ctx.nextCode.toNat = 65536) (code : BitVec 16) :
    (code.toNat = 256 ∧ decodeCode ctx code = .clear) ∨ (∃ b, decodeCode ctx code = .lit b)
      ∨ decodeCode ctx code = .dict code := by
  obtain hlit | hclear | hdict := Nat.lt_trichotomy code.toNat 256
  · exact .inr (.inl ⟨_, decodeCode_lit ctx code (by omega)⟩)
  · exact .inl ⟨hclear, decodeCode_clear ctx code hclear⟩
  · have hentry : code.toNat < ctx.nextCode.toNat := hfull ▸ code.isLt
    exact .inr (.inr (decodeCode_dict ctx code hdict hentry))

/-- R250: a code instruction other than CLEAR leaves a full dictionary as it is. -/
theorem CodeStep.frozen_of_full {i : Instr} (h : CodeStep s i t) (hi : i ≠ .clear) (hfull : s.nextCode.toNat = 65536) :
    t.dict = s.dict ∧ t.nextCode = s.nextCode ∧ t.codeSize = s.codeSize := by
  cases h with
  | clear hr => exact absurd rfl hi
  | resolved i _ _ first rest _ =>
    rw [s.accept_eq_emit first rest (.inr hfull.ge)]
    exact ⟨rfl, rfl, rfl⟩
  | illegal code hr => exact ⟨rfl, rfl, rfl⟩

/-! ### The obligations -/

/-- Settles O24: with PREV empty a literal inserts nothing, CLEAR leaves the base dictionary, and from NEXT_CODE on
every code is illegal. -/
theorem firstCodeOfAnEpoch : Obligations.FirstCodeOfAnEpoch := by
  intro s code hr hnext hprev
  obtain hlit | hclear | hhigh := Nat.lt_trichotomy code.toNat 256
  · refine ⟨s.emit [code.setWidth 8], ?_, hnext, fun _ _ hnone => hnone, ?_⟩
    · rw [decodeCode_lit _ code (by omega), ← s.accept_eq_emit _ _ (.inl hprev)]
      exact execLit_ready _ s hr
    · exact iff_of_false (by simp [hr]) (by omega)
  · refine ⟨s.resetDict, ?_, rfl, fun c hc _ => Memory.read_nil c hc, ?_⟩
    · rw [decodeCode_clear _ code hclear]
      exact exec_clear_ready hr
    · exact iff_of_false (by simp [hr]) (by omega)
  · have hill : s.nextCode.toNat < code.toNat ∨ (code.toNat = s.nextCode.toNat ∧ s.prev = []) :=
      (hnext.trans_le hhigh).lt_or_eq.imp_right fun heq => ⟨heq.symm, hprev⟩
    refine ⟨s.raise .data (code.setWidth 24), ?_, hnext, fun _ _ hnone => hnone, iff_of_true rfl hhigh⟩
    rw [decodeCode_illegal _ code hhigh (by simpa using hill)]
    exact execIllegalCode_ready hr hhigh hill

/-- Settles O25: every code is CLEAR, a literal or an entry, and the last two insert nothing. -/
theorem fullDictionaryIsFrozen : Obligations.FullDictionaryIsFrozen := by
  intro s t code hfull
  obtain ⟨hclear, hi⟩ | ⟨b, hi⟩ | hi := decodeCode_of_full (ctx := ⟨s.nextCode, s.prev.isEmpty⟩) hfull code <;> rw [hi]
  · exact ⟨fun _ => ⟨nofun, nofun⟩, fun hne => absurd hclear hne⟩
  · exact ⟨fun _ => ⟨nofun, nofun⟩, fun _ hexec => (runCode_next (.lit b) s t hexec).frozen_of_full nofun hfull⟩
  · exact ⟨fun _ => ⟨nofun, nofun⟩, fun _ hexec => (runCode_next (.dict code) s t hexec).frozen_of_full nofun hfull⟩

/-- Settles O1: RELEASE is `powerOn` and an answer, and `State.reset` is its own `powerOn`. -/
theorem powerOnAndReleaseValues : Obligations.PowerOnAndReleaseValues :=
  ⟨State.reset.atPowerOn_powerOn, fun s => ⟨_, rfl, s.atPowerOn_powerOn.respond rcOk⟩⟩

/-- Settles O3: CLEAR is `reset_dict()`, which leaves the base dictionary. -/
theorem clearResetsTheDictionaryAlone : Obligations.ClearResetsTheDictionaryAlone := fun s hr =>
  ⟨s.resetDict, exec_clear_ready hr, rfl, rfl, rfl, Memory.read_literal _, Memory.read_clear _, Memory.read_nil, rfl,
    s.resetDict_keepsRest⟩

end Sys2Proof.Machine
end

section
/-! Decode and encode agree (spec/30_encoding.md R93, R95 to R98, R101, R103, R104). -/

namespace Sys2Proof

/-! ### Codes -/

/-- R144: a literal's code is its byte, extended by zeros. -/
theorem toNat_setWidth_lit (b : Byte) : (b.setWidth 16).toNat = b.toNat := BitVec.toNat_setWidth_of_le (by decide)

theorem setWidth_setWidth_lit (b : Byte) : (b.setWidth 16).setWidth 8 = b :=
  BitVec.eq_of_toNat_eq (by rw [BitVec.toNat_setWidth, toNat_setWidth_lit, Nat.mod_eq_of_lt b.isLt])

/-- R103: every code is classified by a row whose condition it meets. -/
theorem decodeCode_rows (ctx : DecodeCtx) (c : BitVec 16) :
    (c = 256#16 ∧ decodeCode ctx c = .clear)
      ∨ (c.toNat ≤ 255 ∧ decodeCode ctx c = .lit (c.setWidth 8))
      ∨ (257 ≤ c.toNat ∧ c.toNat < ctx.nextCode.toNat ∧ decodeCode ctx c = .dict c)
      ∨ (257 ≤ c.toNat ∧ c.toNat = ctx.nextCode.toNat ∧ ctx.prevEmpty = false ∧ decodeCode ctx c = .kwkwk c)
      ∨ (257 ≤ c.toNat ∧ (ctx.nextCode.toNat < c.toNat ∨ c.toNat = ctx.nextCode.toNat ∧ ctx.prevEmpty = true)
        ∧ decodeCode ctx c = .illegalCode c) := by
  obtain hlit | hclear | hdyn := Nat.lt_trichotomy c.toNat 256
  · exact .inr (.inl ⟨by omega, decodeCode_lit ctx c (by omega)⟩)
  · exact .inl ⟨BitVec.eq_of_toNat_eq hclear, decodeCode_clear ctx c hclear⟩
  obtain hlt | heq | hgt := Nat.lt_trichotomy c.toNat ctx.nextCode.toNat
  · exact .inr (.inr (.inl ⟨hdyn, hlt, decodeCode_dict ctx c hdyn hlt⟩))
  · cases hp : ctx.prevEmpty
    · exact .inr (.inr (.inr (.inl ⟨hdyn, heq, rfl, decodeCode_kwkwk ctx c hdyn heq hp⟩)))
    · exact .inr (.inr (.inr (.inr ⟨hdyn, .inr ⟨heq, rfl⟩, decodeCode_illegal ctx c hdyn (.inr ⟨heq, hp⟩)⟩)))
  · exact .inr (.inr (.inr (.inr ⟨hdyn, .inl hgt, decodeCode_illegal ctx c hdyn (.inl hgt)⟩)))

/-! ### Command words -/

/-- R97: K of the word written for it. -/
theorem readK_readWord (k : BitVec 24) : readK (0x20000000#32 ||| k.setWidth 32) = k :=
  BitVec.eq_of_toNat_eq (by rw [readK, extract_toNat, readWord_toNat]; have := k.isLt; omega)

/-- R97: a READ's word is determined by its opcode byte and K. -/
theorem readWord_readK {w : BitVec 32} (hop : w.toNat / 2 ^ 24 = 0x20) :
    0x20000000#32 ||| (readK w).setWidth 32 = w :=
  BitVec.eq_of_toNat_eq (by rw [readWord_toNat, readK, extract_toNat]; omega)

theorem decodeCmd_readWord {k : BitVec 24} (hk : k ≠ 0#24) :
    decodeCmd (0x20000000#32 ||| k.setWidth 32) = .read k := by
  have hpos : 0 < k.toNat := BitVec.toNat_pos_of_ne_zero hk
  have hlt := k.isLt
  rw [decodeCmd_read (by rw [readWord_toNat]; omega) (by rw [readWord_toNat]; omega), readK_readWord]

/-- R104, R106: the illegal words are those that no row above ILLEGAL_CMD matches, by number. -/
theorem legalCmdWord_eq_false {w : BitVec 32} :
    legalCmdWord w = false ↔ w ≠ 0x10000000#32 ∧ w ≠ 0x10000001#32
      ∧ ¬ (w.toNat / 2 ^ 24 = 0x20 ∧ w.toNat % 2 ^ 24 ≠ 0) ∧ w ≠ 0x30000000#32 ∧ w ≠ 0x40000000#32 := by
  have hk : w.setWidth 24 = 0#24 ↔ w.toNat % 2 ^ 24 = 0 := by
    rw [eq_iff_toNat, BitVec.toNat_setWidth, BitVec.toNat_zero]
  simp only [legalCmdWord, Bool.or_eq_false_iff, Bool.and_eq_false_imp, beq_iff_eq, beq_eq_false_iff_ne, bne_eq_false_iff_eq,
    and_readMask, hk, and_assoc, not_and, not_not]

/-! ### The obligations -/

/-- Settles O6: a code's row gives the code its instruction back, a command's word its bits and a request its width. -/
theorem decodeOfEncodeIsTheInstruction : Obligations.DecodeOfEncodeIsTheInstruction := by
  intro ctx i hwf hlegal
  cases i with
  | clear => exact decodeCode_clear ctx _ rfl
  | lit b =>
    have hlit : (b.setWidth 16).toNat ≤ 255 := by rw [toNat_setWidth_lit]; have := b.isLt; omega
    rw [encode, decode, decodeCode_lit ctx _ hlit, setWidth_setWidth_lit]
  | dict c => exact decodeCode_dict ctx c (of_decide_eq_true hwf) (of_decide_eq_true hlegal)
  | kwkwk c =>
    have hc : c.toNat = ctx.nextCode.toNat ∧ ctx.prevEmpty = false := by simpa [Instr.legalIn] using hlegal
    exact decodeCode_kwkwk ctx c (of_decide_eq_true hwf) hc.1 hc.2
  | illegalCode c => exact decodeCode_illegal ctx c (of_decide_eq_true hwf) (by simpa [Instr.legalIn] using hlegal)
  | initRaw | initHdr | release | status => rfl
  | read k => exact decodeCmd_readWord (by simpa [Instr.wf] using hwf)
  | illegalCmd w =>
    obtain ⟨hraw, hhdr, hread, hrelease, hstatus⟩ := legalCmdWord_eq_false.1 (by simpa [Instr.wf] using hwf)
    exact decodeCmd_illegalCmd hraw hhdr hread hrelease hstatus
  | brGet n => exact if_pos (of_decide_eq_true hwf)
  | brGetRefused n => exact Machine.decodeBrReq_of_wide (of_decide_eq_true hwf)
  | srcPull => rfl

theorem encode_decode_code (ctx : DecodeCtx) (c : BitVec 16) :
    encode (decodeCode ctx c) = .code c ∧ (decodeCode ctx c).wf = true ∧ (decodeCode ctx c).legalIn ctx = true := by
  obtain ⟨rfl, hi⟩ | ⟨hlit, hi⟩ | ⟨hdyn, hlt, hi⟩ | ⟨hdyn, heq, hp, hi⟩ | ⟨hdyn, hill, hi⟩ :=
    decodeCode_rows ctx c <;> rw [hi]
  · exact ⟨rfl, rfl, rfl⟩
  · refine ⟨congrArg RawWord.code (BitVec.eq_of_toNat_eq ?_), rfl, rfl⟩
    rw [toNat_setWidth_lit, BitVec.toNat_setWidth]
    omega
  · exact ⟨rfl, decide_eq_true hdyn, decide_eq_true hlt⟩
  · exact ⟨rfl, decide_eq_true hdyn, by simp [Instr.legalIn, heq, hp]⟩
  · exact ⟨rfl, decide_eq_true hdyn, by simpa [Instr.legalIn] using hill⟩

theorem encode_decode_cmd (ctx : DecodeCtx) (w : BitVec 32) :
    encode (decodeCmd w) = .cmd w ∧ (decodeCmd w).wf = true ∧ (decodeCmd w).legalIn ctx = true := by
  obtain ⟨hw, hi⟩ | ⟨hw, hi⟩ | ⟨hop, hk, hi⟩ | ⟨hw, hi⟩ | ⟨hw, hi⟩ | ⟨hraw, hhdr, hread, hrelease, hstatus, hi⟩ :=
    decodeCmd_cases w <;> rw [hi]
  case inr.inr.inl =>
    have hkn : (readK w).toNat = w.toNat % 2 ^ 24 := by rw [readK, extract_toNat, Nat.pow_zero, Nat.div_one]
    have hk' : readK w ≠ 0#24 := mt (fun h => by rw [← hkn, h, BitVec.toNat_zero]) hk
    exact ⟨congrArg RawWord.cmd (readWord_readK hop), by simpa [Instr.wf] using hk', rfl⟩
  case inr.inr.inr.inr.inr =>
    have hill := legalCmdWord_eq_false.2 ⟨mt (congrArg BitVec.toNat) hraw, mt (congrArg BitVec.toNat) hhdr, hread,
      mt (congrArg BitVec.toNat) hrelease, mt (congrArg BitVec.toNat) hstatus⟩
    exact ⟨rfl, by simpa [Instr.wf] using hill, rfl⟩
  all_goals exact ⟨congrArg RawWord.cmd (BitVec.eq_of_toNat_eq hw.symm), rfl, rfl⟩

theorem encode_decode_brReq (ctx : DecodeCtx) (n : BitVec 7) :
    encode (decodeBrReq n) = .brReq n ∧ (decodeBrReq n).wf = true ∧ (decodeBrReq n).legalIn ctx = true := by
  unfold decodeBrReq
  split
  · rename_i hn
    exact ⟨rfl, decide_eq_true hn, rfl⟩
  · rename_i hn
    exact ⟨rfl, decide_eq_true (Nat.not_le.1 hn), rfl⟩

/-- Settles O7: format by format, each row keeps every bit of the word its condition does not fix. -/
theorem encodeOfDecodeIsTheWord : Obligations.EncodeOfDecodeIsTheWord := by
  intro ctx w _
  cases w with
  | code c => exact encode_decode_code ctx c
  | cmd w => exact encode_decode_cmd ctx w
  | brReq n => exact encode_decode_brReq ctx n
  | srcPull => exact ⟨rfl, rfl, rfl⟩

/-- Settles O5: each word is a number, which the decoder computes on. -/
theorem wordsOfTheEncodingTablesDecode : Obligations.WordsOfTheEncodingTablesDecode := by
  unfold Obligations.WordsOfTheEncodingTablesDecode
  decide

end Sys2Proof
end

section
/-! What a step and an instruction that complete can do, said once, and the invariant they keep (spec/42_host_commands.md
R180, R194, spec/41_decoder_codes.md R141, R142, R153). -/

namespace Sys2Proof.Machine

/-! ### The step, by the request at the front of the inbox -/

theorem State.fetchCode_isCode {s u : State} {i : Instr} (h : s.fetchCode = .code i u) : i.isCode = true := by
  obtain ⟨v, u', m, -, -, -, hf⟩ | ⟨u', -, -, -, hf⟩ | ⟨e, u', -, -, -, hf⟩ | ⟨-, -, hf⟩ | ⟨-, hf⟩ := s.fetchCode_cases
  · cases hf.symm.trans h
    exact decodeCode_isCode _ _
  all_goals cases hf.symm.trans h

section
variable {s : State} {rest : List Request}

theorem step_idle (h : s.inbox = []) : step s = .next s := by simp [step, State.fetch, h]

theorem step_cmd {w : BitVec 32} {hand : Option Source} (h : s.inbox = .cmd w hand :: rest) :
    step s = exec (decodeCmd w) (State.handOver (decodeCmd w) hand { s with inbox := rest }) := by
  simp [step, State.fetch, h]

theorem step_brReq {n : BitVec 7} (h : s.inbox = .brReq n :: rest) :
    step s = exec (decodeBrReq n) { s with inbox := rest } := by
  simp [step, State.fetch, h]

theorem step_srcPull (h : s.inbox = .srcPull :: rest) : step s = exec .srcPull { s with inbox := rest } := by
  simp [step, State.fetch, h]

/-- R141: a decode step requested alone is `advance()`. -/
theorem step_decodeStep (h : s.inbox = .decodeStep :: rest) : step s = advance { s with inbox := rest } := by
  simp only [step, State.fetch, h, advance]
  cases hf : State.fetchCode { s with inbox := rest } with
  | code i u => exact exec_code i (State.fetchCode_isCode hf) u
  | stop o => rfl

end

/-- R194: a source handed over with an INIT becomes the bound one. -/
theorem State.handOver_init {i : Instr} (s : State) (hand : Option Source) (hi : i = .initRaw ∨ i = .initHdr) :
    s.handOver i hand = { s with src := hand.getD s.src } := by
  rcases hi with rfl | rfl <;> cases hand <;> rfl

theorem State.handOver_other {i : Instr} (s : State) (hand : Option Source) (hraw : i ≠ .initRaw) (hhdr : i ≠ .initHdr) :
    s.handOver i hand = s := by
  cases i with
  | initRaw => exact absurd rfl hraw
  | initHdr => exact absurd rfl hhdr
  | _ => rfl

/-! ### The instruction that completes -/

/-- What `exec` did when it answered a next state, one constructor per way an instruction completes. -/
inductive Executed (s : State) : Instr → State → Prop where
  /-- A code class (R144 to R148). -/
  | code (i : Instr) (t : State) (hi : i.isCode = true) (h : CodeStep s i t) : Executed s i t
  /-- R182. -/
  | initRaw : Executed s .initRaw (({ s.newStream with st := .ready } : State).respond rcOk)
  /-- R183, the header found. -/
  | opened (q : Source) : Executed s .initHdr (({ s.newStream with src := q, st := .ready } : State).respond rcOk)
  /-- R183, a format or an I/O error. -/
  | headerFault (q : Source) (k : ErrKind) (info : BitVec 24) (hk : k = .format ∨ k = .io)
      (hio : k = .io → s.src.term = .err info) :
      Executed s .initHdr (({ s.newStream with src := q } : State).raise k info).respondErr
  /-- R184, no stream opened yet. -/
  | notOpen (k : BitVec 24) (hst : s.st = .uninit) : Executed s (.read k) (s.respond rcNotOpen)
  /-- R184, after an error. -/
  | afterFault (k : BitVec 24) (hst : s.st = .fault) : Executed s (.read k) (s.respond s.err.rc)
  /-- R185. -/
  | read (k : BitVec 24) (u : State) (hopen : s.Open) (hrun : ReadRun k.toNat s u) :
      Executed s (.read k) (u.deliver k.toNat)
  /-- R188. -/
  | release : Executed s .release (s.powerOn.respond rcOk)
  /-- R189. -/
  | status : Executed s .status (s.answer (.host (resp32 rcOk 0#24) [] [s.w0, s.w1, s.w2]))
  /-- R190. -/
  | illegalCmd (w : BitVec 32) : Executed s (.illegalCmd w) (s.respond rcIllegalCmd)
  /-- R121, enough bits left. -/
  | bits (n : BitVec 7) (v : BitVec 64) (m : Nat) (u : State) (hn : n.toNat ≤ 64) (hv : BrValue n.toNat s u v m) :
      Executed s (.brGet n) (u.answer (.bits (.value v)))
  /-- R124, R128: too few bits left. -/
  | fewBits (n : BitVec 7) (r : BrResult) (u : State) (hn : n.toNat ≤ 64) (hr : ∀ v, r ≠ .value v)
      (hu : BrShort n.toNat s u) : Executed s (.brGet n) (u.answer (.bits r))
  /-- R61. -/
  | pulled (r : SrcResp) (q : Source) : Executed s .srcPull (({ s with src := q } : State).answer (.source r))

theorem execRead_next {k : BitVec 24} {s t : State} (h : exec (.read k) s = .next t) : Executed s (.read k) t := by
  have run (hopen : s.Open) : Executed s (.read k) t := by
    obtain ⟨u, hrun, rfl⟩ := (exec_read_open hopen).1 h
    exact .read k u hopen hrun
  cases hst : s.st with
  | uninit => cases (exec_read_uninit k hst).symm.trans h; exact .notOpen k hst
  | fault => cases (exec_read_fault k hst).symm.trans h; exact .afterFault k hst
  | ready => exact run (.inl hst)
  | eos => exact run (.inr hst)

theorem execBrGet_next {n : BitVec 7} {s t : State} (h : exec (.brGet n) s = .next t) : Executed s (.brGet n) t := by
  by_cases hn : n.toNat ≤ 64
  · cases hget : s.brGet n.toNat with
    | none => simp [exec, execBrGet, hn, hget] at h
    | some p =>
      obtain ⟨r, u⟩ := p
      cases (exec_brGet_of_brGet hn hget).symm.trans h
      by_cases hr : ∃ v, r = .value v
      · obtain ⟨v, rfl⟩ := hr
        obtain ⟨m, hv⟩ := s.brGet_value _ hn u v hget
        exact .bits n v m u hn hv
      · have hr' : ∀ v, r ≠ .value v := not_exists.1 hr
        exact .fewBits n r u hn hr' (s.brGet_short _ hn u r hget hr').1
  · cases (exec_brGet_of_wide (Nat.lt_of_not_le hn)).symm.trans h

/-- An instruction that completes did what its row says. -/
theorem exec_next {i : Instr} {s t : State} (h : exec i s = .next t) : Executed s i t := by
  cases i with
  | clear | lit | dict | kwkwk | illegalCode => exact .code _ t rfl (runCode_next _ s t h)
  | initRaw => cases h; exact .initRaw
  | initHdr =>
    obtain ⟨q, rfl | ⟨k, info, hk, hio, rfl⟩⟩ := execInitHdr_next s t h
    · exact .opened q
    · exact .headerFault q k info hk hio
  | read k => exact execRead_next h
  | release => cases h; exact .release
  | status => cases h; exact .status
  | illegalCmd w => cases h; exact .illegalCmd w
  | brGet n => exact execBrGet_next h
  | brGetRefused n => cases h
  | srcPull =>
    cases hpull : s.src.pull with
    | none => simp [exec, execSrcPull, hpull] at h
    | some p => cases (exec_srcPull_of_pull hpull).symm.trans h; exact .pulled p.1 p.2

/-! ### The invariant -/

/-- R194: the invariant does not read the source. -/
theorem State.Inv.handOver {s : State} (h : s.Inv) (i : Instr) (hand : Option Source) : (s.handOver i hand).Inv := by
  apply h.congr <;> simp

theorem State.inv_powerOn (s : State) : s.powerOn.Inv :=
  .base rfl rfl rfl rfl (by simp) (by simp) (fun _ => ⟨rfl, rfl⟩) nofun

theorem Executed.keeps_inv {i : Instr} {s t : State} (h : Executed s i t) (hs : s.Inv) : t.Inv := by
  cases h with
  | code i t hi h => exact h.keeps_inv hs
  | initRaw => exact .base rfl rfl rfl rfl (by simp) (by simp) (fun _ => ⟨rfl, rfl⟩) nofun
  | opened q => exact .base rfl rfl rfl rfl (by simp) (by simp) (fun _ => ⟨rfl, rfl⟩) nofun
  | headerFault q k info hk hio =>
    refine .base rfl rfl rfl rfl (by simp) (by simp) (fun hf => absurd rfl hf) fun _ => ?_
    rcases hk with rfl | rfl <;> exact nofun
  | notOpen k hst => exact hs.answer _
  | afterFault k hst => exact hs.answer _
  | read k u hopen hrun => exact (hrun.keeps_inv hs).congr rfl rfl rfl rfl rfl rfl rfl rfl rfl
  | release => exact s.inv_powerOn.answer _
  | status => exact hs.answer _
  | illegalCmd w => exact hs.answer _
  | bits n v m u hn hv => exact (hv.keeps_inv hs).answer _
  | fewBits n r u hn hr hu => exact (hu.keeps_inv hn hs).answer _
  | pulled r q => exact hs.congr rfl rfl rfl rfl rfl rfl rfl rfl rfl

/-! ### The obligations -/

/-- Settles O13: the request leaves the inbox, which the invariant does not read, and what runs then keeps it. -/
theorem everyStepKeepsTheInvariant : Obligations.EveryStepKeepsTheInvariant := by
  intro s t hs h
  have taken (rest : List Request) : ({ s with inbox := rest } : State).Inv :=
    hs.congr rfl rfl rfl rfl rfl rfl rfl rfl rfl
  match hin : s.inbox with
  | [] => cases (step_idle hin).symm.trans h; exact hs
  | .cmd w hand :: rest =>
    rw [step_cmd hin] at h
    exact (exec_next h).keeps_inv ((taken rest).handOver (decodeCmd w) hand)
  | .decodeStep :: rest =>
    rw [step_decodeStep hin] at h
    exact (advance_next _ t h).keeps_inv (taken rest)
  | .brReq n :: rest => rw [step_brReq hin] at h; exact (exec_next h).keeps_inv (taken rest)
  | .srcPull :: rest => rw [step_srcPull hin] at h; exact (exec_next h).keeps_inv (taken rest)

/-- Settles O11: the step is `exec` of the decoded instruction by the front request; a decode step runs its class rule,
which is `exec` of a code. -/
theorem stepRunsTheDecodedInstruction : Obligations.StepRunsTheDecodedInstruction := by
  intro s rest
  refine ⟨fun w hand hin => ⟨fun hi => ?_, fun hraw hhdr => ?_⟩, fun v t hin hr hget => ?_, fun n hin => step_brReq hin,
    step_srcPull, step_idle⟩
  · rw [step_cmd hin, State.handOver_init _ hand hi]
  · rw [step_cmd hin, State.handOver_other _ hand hraw hhdr]
  · rw [exec_code _ (decodeCode_isCode _ _), step_decodeStep hin]
    simp only [advance, State.fetchCode, if_pos hr, hget]
    rfl

/-- Settles O12: what the decode step answers is read off the result of its fetch. -/
theorem decodeStepWithoutACode : Obligations.DecodeStepWithoutACode := by
  intro s rest hin
  rw [step_decodeStep hin]
  refine ⟨fun t hr hget => ?_, fun e t hr hget => ?_, fun hr hget => ?_, fun hr => ?_⟩
  · simp only [advance, State.fetchCode, if_pos hr, hget]
  · simp only [advance, State.fetchCode, if_pos hr, hget, State.raise]
  · simp only [advance, State.fetchCode, if_pos hr, hget]
  · simp only [advance, State.fetchCode, if_neg hr]

end Sys2Proof.Machine
end

section
/-! The state between host commands (spec/42_host_commands.md R187, R192, spec/40_bit_reader.md R131): the loop of READ
leaves at most a proper suffix of PREV behind what it delivers. -/

namespace Sys2Proof.Machine

/-! ### What a READ leaves in OUTQ (R192) -/

/-- R192: `out` is empty or a proper suffix of `seq`. -/
def ProperSuffix (out seq : ByteSeq) : Prop := out = [] ∨ ∃ front, front ≠ [] ∧ seq = front ++ out

theorem ProperSuffix.drop {out seq : ByteSeq} (h : ProperSuffix out seq) (k : Nat) : ProperSuffix (out.drop k) seq := by
  obtain rfl | ⟨front, hfront, rfl⟩ := h
  · exact .inl (List.drop_nil)
  · refine .inr ⟨front ++ out.take k, List.append_ne_nil_of_left_ne_nil hfront _, ?_⟩
    rw [List.append_assoc, List.take_append_drop]

/-- With fewer than `k` bytes queued before a sequence, a delivery of `k` bytes begins the sequence. -/
theorem properSuffix_drop_append {out seq : ByteSeq} {k : Nat} (hk : out.length < k) :
    ProperSuffix ((out ++ seq).drop k) seq := by
  rw [List.drop_append, List.drop_eq_nil_of_le hk.le, List.nil_append]
  by_cases hseq : seq = []
  · exact .inl (by rw [hseq, List.drop_nil])
  · have htake : seq.take (k - out.length) ≠ [] := by
      rw [ne_eq, List.take_eq_nil_iff]
      exact not_or.2 ⟨by omega, hseq⟩
    exact .inr ⟨_, htake, (List.take_append_drop _ _).symm⟩

section
variable {s t : State} {i : Instr} {k : Nat}

theorem CodeStep.properSuffix (h : CodeStep s i t) (hk : s.outQ.length < k) : ProperSuffix (t.outQ.drop k) t.prev := by
  cases h with
  | clear hr => exact .inl (List.drop_eq_nil_of_le hk.le)
  | resolved i hi hr first rest hs =>
    rw [State.accept_outQ, State.accept_prev]
    exact properSuffix_drop_append hk
  | illegal code hr => exact .inl (List.drop_eq_nil_of_le hk.le)

theorem Advance.properSuffix (h : Advance s t) (hk : s.outQ.length < k) : ProperSuffix (t.outQ.drop k) t.prev := by
  cases h with
  | code v m u t hr hv ht => exact ht.properSuffix (hv.keeps.outQ ▸ hk)
  | ended u hr hu => exact .inl (List.drop_eq_nil_of_le (hu.keeps.outQ ▸ hk.le))
  | failed e u hr hu he => exact .inl (List.drop_eq_nil_of_le (hu.keeps.outQ ▸ hk.le))

theorem ReadRun.properSuffix (h : ReadRun k s t) (hs : ProperSuffix s.outQ s.prev) :
    ProperSuffix (t.outQ.drop k) t.prev :=
  h.induct (P := fun a => ProperSuffix (a.outQ.drop k) a.prev) (hs.drop k) fun _ _ _ hk _ hadv => hadv.properSuffix hk

/-- R131: with CODESIZE at most 16, a fetch leaves at most 15 bits. -/
theorem Advance.bitCnt_le (h : Advance s t) (hs : s.Inv) (hb : s.bitCnt.toNat ≤ 15) : t.bitCnt.toNat ≤ 15 := by
  have hwidth := hs.codeSize_bounds
  cases h with
  | code v m u t hr hv ht =>
    obtain ⟨-, -, -, -, -, hkept, -⟩ := ht.frame
    rw [hkept]
    have hcnt := hv.cnt
    rcases hv.small with rfl | hsmall <;> omega
  | ended u hr hu => exact Nat.le_of_lt_succ (Nat.lt_of_lt_of_le hu.few hwidth.2)
  | failed e u hr hu he => exact Nat.le_of_lt_succ (Nat.lt_of_lt_of_le hu.few hwidth.2)

theorem ReadRun.bitCnt_le (h : ReadRun k s t) (hs : s.Inv) (hb : s.bitCnt.toNat ≤ 15) : t.bitCnt.toNat ≤ 15 :=
  (h.induct (P := fun a => a.Inv ∧ a.bitCnt.toNat ≤ 15) ⟨hs, hb⟩
    fun _ _ ha _ _ hadv => ⟨hadv.keeps_inv ha.1, hadv.bitCnt_le ha.1 ha.2⟩).2

/-- The loop of READ ends with a stream opened before it (R185). -/
theorem ReadRun.ne_uninit (h : ReadRun k s t) (hs : s.Open) : t.st ≠ .uninit := by
  rcases hs with hs | hs
  · rcases h.phase hs with ht | ht | ht <;> simp [ht]
  · rw [h.closed (by simp [hs])]
    simp [hs]

/-- R192: a READ that leaves the stream closed has delivered all that was queued (R186, R187). -/
theorem ReadRun.drained (h : ReadRun k s t) (hs : s.Open) (hout : s.st ≠ .ready → s.outQ = []) (ht : t.st ≠ .ready) :
    t.outQ.drop k = [] := by
  rcases hs with hs | hs
  · exact List.drop_eq_nil_of_le (h.short_of_closed hs ht).le
  · have hclosed : s.st ≠ .ready := by simp [hs]
    rw [h.closed hclosed, hout hclosed, List.drop_nil]

end

/-! ### The invariant between host commands -/

/-- The invariant reads the engine, and of the agents' fields the inbox alone. -/
theorem State.HostInv.congr {s t : State} (h : s.HostInv) (he : SameEngine s t)
    (hin : ∀ r ∈ t.inbox, r.isHost = true) : t.HostInv := by
  have heq : t = { s with src := t.src, inbox := t.inbox, outbox := t.outbox } := by
    obtain ⟨h1, h2, h3, h4, h5, h6, h7, h8, h9, h10⟩ := he
    rw [← h1, ← h2, ← h3, ← h4, ← h5, ← h6, ← h7, ← h8, ← h9, ← h10]
  rw [heq]
  exact { h with
    inv := h.inv.congr rfl rfl rfl rfl rfl rfl rfl rfl rfl, host := hin, closed := fun hu => { h.closed hu with } }

theorem State.HostInv.answer {s : State} (h : s.HostInv) (r : Response) : (s.answer r).HostInv :=
  h.congr ⟨rfl, rfl, rfl, rfl, rfl, rfl, rfl, rfl, rfl, rfl⟩ h.host

/-- In any phase but UNINIT, with nothing queued or buffered. -/
theorem State.HostInv.of_empty {t : State} (hinv : t.Inv) (hin : ∀ r ∈ t.inbox, r.isHost = true)
    (hout : t.outQ = []) (hcnt : t.bitCnt = 0#7) (hst : t.st ≠ .uninit) : t.HostInv :=
  ⟨hinv, hin, .inl hout, fun _ => hout, by simp [hcnt], fun hu => absurd hu hst⟩

/-- Power-on values meet the invariant, with host commands alone waiting. -/
theorem State.hostInv_powerOn {s : State} (hin : ∀ r ∈ s.inbox, r.isHost = true) : s.powerOn.HostInv :=
  ⟨s.inv_powerOn, hin, .inl rfl, fun _ => rfl, by simp, fun _ => s.atPowerOn_powerOn⟩

theorem State.HostInv.read {k : Nat} {s u : State} (h : s.HostInv) (hopen : s.Open) (hrun : ReadRun k s u) :
    (u.deliver k).HostInv where
  inv := (hrun.keeps_inv h.inv).congr rfl rfl rfl rfl rfl rfl rfl rfl rfl
  host := hrun.loopKeeps.inbox ▸ h.host
  out := hrun.properSuffix h.out
  drained := hrun.drained hopen h.drained
  bits := hrun.bitCnt_le h.inv h.bits
  closed := fun hu => absurd hu (hrun.ne_uninit hopen)

theorem Instr.isHost_eq_false_of_isCode {i : Instr} (h : i.isCode = true) : i.isHost = false := by
  cases i with
  | clear | lit | dict | kwkwk | illegalCode => rfl
  | _ => cases h

theorem Executed.keeps_hostInv {i : Instr} {s t : State} (h : Executed s i t) (hi : i.isHost = true) (hs : s.HostInv) :
    t.HostInv := by
  have hinv : t.Inv := h.keeps_inv hs.inv
  cases h with
  | code i t hc h => exact absurd hi (by simp [Instr.isHost_eq_false_of_isCode hc])
  | initRaw => exact .of_empty hinv hs.host rfl rfl nofun
  | opened q => exact .of_empty hinv hs.host rfl rfl nofun
  | headerFault q k info hk hio => exact .of_empty hinv hs.host rfl rfl nofun
  | notOpen k hst => exact hs.answer _
  | afterFault k hst => exact hs.answer _
  | read k u hopen hrun => exact hs.read hopen hrun
  | release => exact (State.hostInv_powerOn hs.host).answer _
  | status => exact hs.answer _
  | illegalCmd w => exact hs.answer _
  | bits n v m u hn hv => cases hi
  | fewBits n r u hn hr hu => cases hi
  | pulled r q => cases hi

theorem resp32_ok : resp32 rcOk 0#24 = 0x00000000#32 := by decide

/-! ### The obligations -/

/-- Settles O14: the front request is a host command's word, which decodes to a host command, and READ is the only one
that decodes. -/
theorem hostStepsKeepTheHostInvariant : Obligations.HostStepsKeepTheHostInvariant := by
  intro s t hs h
  have hhost := hs.host
  match hin : s.inbox with
  | [] => cases (step_idle hin).symm.trans h; exact hs
  | .cmd w hand :: rest =>
    rw [step_cmd hin] at h
    obtain ⟨hword, -⟩ := encode_decode_cmd s.ctx w
    rw [hin] at hhost
    refine (exec_next h).keeps_hostInv (by rw [Instr.isHost, hword]) (hs.congr ?_ ?_)
    · constructor <;> simp
    · simpa using fun r hr => hhost r (List.mem_cons_of_mem _ hr)
  | .decodeStep :: rest => simp [hin, Request.isHost] at hhost
  | .brReq n :: rest => simp [hin, Request.isHost] at hhost
  | .srcPull :: rest => simp [hin, Request.isHost] at hhost

/-- Settles O15: `State.reset` is its own `powerOn`, with nothing waiting. -/
theorem resetMeetsTheInvariants : Obligations.ResetMeetsTheInvariants :=
  ⟨State.reset.inv_powerOn, State.hostInv_powerOn (s := State.reset) nofun⟩

/-- Settles O42: with nothing queued once the stream has ended, the loop and the delivery do nothing. -/
theorem readAfterEndOfStream : Obligations.ReadAfterEndOfStream := by
  intro k s hs heos
  have hclosed : s.st ≠ .ready := by simp [heos]
  have hout := hs.drained hclosed
  refine ⟨hout, (exec_read_open (.inr heos)).2 ⟨s, .stop s fun h => hclosed h.2, ?_⟩⟩
  simp [State.deliver, State.answer, State.readRc, heos, hout, resp32_ok]

end Sys2Proof.Machine
end

section
/-! What LIT, DICT and KWKWK resolve to, and the insertion each makes (spec/41_decoder_codes.md R143 to R154, R108). -/

namespace Sys2Proof.Machine

/-! ### The classes in place, and out of place -/

section
variable {s t : State} {code : BitVec 16} {i : Instr}

theorem exec_dict_entry {first : Byte} {rest : ByteSeq} (hr : s.st = .ready) (hlow : 257 ≤ code.toNat)
    (hlt : code.toNat < s.nextCode.toNat) (hread : s.dict.read code.toNat = some (first :: rest)) :
    exec (.dict code) s = .next (s.accept first rest) := by
  simp [exec, execDict, whenReady, hr, hlow, hlt, hread]

theorem exec_kwkwk_prev {first : Byte} {rest : ByteSeq} (hr : s.st = .ready) (hlow : 257 ≤ code.toNat)
    (heq : code.toNat = s.nextCode.toNat) (hprev : s.prev = first :: rest) :
    exec (.kwkwk code) s = .next (s.accept first (rest ++ [first])) := by
  simp only [exec, execKwkwk, whenReady, if_pos hr, Config.firstCode, if_pos (And.intro hlow heq), hprev]

/-- R141: no class runs outside READY. -/
theorem exec_code_of_not_ready (hi : i.isCode = true) (hr : s.st ≠ .ready) : exec i s = .refused .notReady := by
  cases i with
  | clear | lit | dict | kwkwk | illegalCode => exact if_neg hr
  | _ => cases hi

theorem exec_dict_mismatch (hr : s.st = .ready) (h : ¬ code.toNat < s.nextCode.toNat) :
    exec (.dict code) s = .refused .classMismatch := by
  simp [exec, execDict, whenReady, hr, h]

theorem exec_kwkwk_mismatch (hr : s.st = .ready) (h : code.toNat = s.nextCode.toNat → s.prev = []) :
    exec (.kwkwk code) s = .refused .classMismatch := by
  simp only [exec, execKwkwk, whenReady, if_pos hr]
  split
  · rename_i hc
    rw [h hc.2]
  · rfl

theorem exec_illegalCode_mismatch (hr : s.st = .ready)
    (h : ¬ (s.nextCode.toNat < code.toNat ∨ code.toNat = s.nextCode.toNat ∧ s.prev = [])) :
    exec (.illegalCode code) s = .refused .classMismatch := by
  simp only [exec, execIllegalCode, whenReady, if_pos hr]
  exact if_neg fun hc => h hc.2

theorem Instr.isCode_of_resolves (h : i.resolves = true) : i.isCode = true := by
  cases i with
  | clear | lit | dict | kwkwk | illegalCode => rfl
  | _ => cases h

/-- R149 to R152: a class that resolves and completes has resolved to some non-empty sequence. -/
theorem exec_resolved (hi : i.resolves = true) (hlow : 257 ≤ s.nextCode.toNat) (h : exec i s = .next t) :
    ∃ first rest, Resolved s t (first :: rest) := by
  rw [exec_code i (Instr.isCode_of_resolves hi)] at h
  cases runCode_next i s t h with
  | clear hr => cases hi
  | resolved i _ hr first rest hs => exact ⟨first, rest, s.accept_resolved first rest hlow⟩
  | illegal code hr => cases hi

end

theorem exec_dict_resolved {code : BitVec 16} {seq : ByteSeq} {s : State} (hr : s.st = .ready) (hlow : 257 ≤ code.toNat)
    (hlt : code.toNat < s.nextCode.toNat) (hread : s.dict.read code.toNat = some seq) (hne : seq ≠ []) :
    ∃ t, exec (.dict code) s = .next t ∧ Resolved s t seq := by
  obtain ⟨first, rest, rfl⟩ := List.exists_cons_of_ne_nil hne
  exact ⟨_, exec_dict_entry hr hlow hlt hread, s.accept_resolved first rest (Nat.le_trans hlow hlt.le)⟩

/-- R154: an insertion moves NEXT_CODE by one, and CODESIZE by at most one. -/
theorem State.accept_counters (first : Byte) (rest : ByteSeq) (s : State) :
    ((s.accept first rest).nextCode.toNat = s.nextCode.toNat
        ∨ (s.accept first rest).nextCode.toNat = s.nextCode.toNat + 1 ∧ s.nextCode.toNat < 65536)
      ∧ ((s.accept first rest).codeSize.toNat = s.codeSize.toNat
        ∨ (s.accept first rest).codeSize.toNat = s.codeSize.toNat + 1 ∧ s.codeSize.toNat < 16) := by
  rw [State.accept_nextCode, State.accept_codeSize]
  by_cases hkept : s.prev = [] ∨ 65536 ≤ s.nextCode.toNat
  · rw [s.insert_kept first hkept]
    exact ⟨.inl rfl, .inl rfl⟩
  · obtain ⟨hp, hfull⟩ := not_or.1 hkept
    obtain ⟨hnext, -, hsize⟩ := s.insert_grown first hp (Nat.lt_of_not_le hfull)
    refine ⟨.inr ⟨hnext, Nat.lt_of_not_le hfull⟩, ?_⟩
    rw [hsize]
    split
    · rename_i hgrow
      exact .inr ⟨rfl, hgrow.2⟩
    · exact .inl rfl

/-! ### NEXT_CODE and CODESIZE along an epoch (R108) -/

/-- After `j` codes of an epoch: R108's NEXT_CODE and width, and PREV empty at its start alone. -/
structure EpochAt (j : Nat) (s : State) : Prop where
  nextCode : s.nextCode.toNat = min 65536 (257 + (j - 1))
  codeSize : s.codeSize.toNat = epochWidth j
  prev     : s.prev = [] ↔ j = 0

theorem EpochAt.succ {j : Nat} {s t : State} {first : Byte} {rest : ByteSeq} (h : EpochAt j s)
    (hr : Resolved s t (first :: rest)) : EpochAt (j + 1) t := by
  obtain ⟨hnext, hsize, hprev⟩ := h
  have hprev' : t.prev = [] ↔ j + 1 = 0 := by simp [hr.prev]
  by_cases hkept : s.prev = [] ∨ s.nextCode.toNat = 65536
  · obtain ⟨hnext', hsize', -⟩ := hr.kept hkept
    have hsame : min 65536 (257 + (j + 1 - 1)) = min 65536 (257 + (j - 1)) := by
      rcases hkept with hp | hfull
      · rw [hprev.1 hp]
      · omega
    exact ⟨by rw [hnext', hnext, hsame], by rw [hsize', hsize, epochWidth, epochWidth, hsame], hprev'⟩
  · obtain ⟨hp, hfull⟩ := not_or.1 hkept
    have hj : j ≠ 0 := mt hprev.2 hp
    have hlt : s.nextCode.toNat < 65536 := by omega
    obtain ⟨hnext', -, -, hsize'⟩ := hr.grown hp hlt
    have hwidth : s.codeSize.toNat = min 16 (bitlen s.nextCode.toNat) := by rw [hsize, epochWidth, hnext]
    have hsucc : min 65536 (257 + (j + 1 - 1)) = s.nextCode.toNat + 1 := by omega
    refine ⟨by omega, ?_, hprev'⟩
    rw [hsize', epochWidth, hsucc, width_succ _ (by omega) hlt, hwidth]

theorem EpochAt.runAll {is : List Instr} {j : Nat} {s t : State} (h : EpochAt j s) (his : ∀ i ∈ is, i.resolves = true)
    (hrun : runAll is s = .next t) : EpochAt (j + is.length) t := by
  induction is generalizing j s with
  | nil => cases hrun; exact h
  | cons i is ih =>
    rw [Machine.runAll] at hrun
    split at hrun
    · rename_i u hexec
      have hlow : 257 ≤ s.nextCode.toNat := by rw [h.nextCode]; omega
      obtain ⟨first, rest, hres⟩ := exec_resolved (his i (by simp)) hlow hexec
      have htail := ih (h.succ hres) (fun i' hi' => his i' (List.mem_cons_of_mem _ hi')) hrun
      rwa [List.length_cons, Nat.add_comm is.length, ← Nat.add_assoc]
    · cases hrun
    · cases hrun

/-! ### The obligations -/

/-- Settles O18: a literal reads as its byte, and the tail of the decode step is the rest. -/
theorem literalResolvesToItsByte : Obligations.LiteralResolvesToItsByte :=
  fun b s hr hlow _ => ⟨_, execLit_ready b s hr, s.accept_resolved b [] hlow⟩

/-- Settles O19: the entry is the sequence resolved to. -/
theorem dictionaryCodeResolvesToItsEntry : Obligations.DictionaryCodeResolvesToItsEntry :=
  fun _ _ _ hr _ hlow hlt hread hne => exec_dict_resolved hr hlow hlt hread hne

/-- Settles O20: the entries are the codes below NEXT_CODE, and each but the placeholder is non-empty. -/
theorem dictionaryCodeAlwaysNamesAnEntry : Obligations.DictionaryCodeAlwaysNamesAnEntry := by
  intro code s hs hr hlow hlt
  obtain ⟨seq, hread⟩ := Option.isSome_iff_exists.1 ((hs.read_isSome code.toNat).2 hlt)
  have hne : seq ≠ [] := hs.read_ne_nil code.toNat seq (by omega) hread
  obtain ⟨t, hexec, hres⟩ := exec_dict_resolved hr hlow hlt hread hne
  exact ⟨seq, t, hread, hexec, hres⟩

/-- Settles O21: the sequence resolved to begins with PREV's first byte, so the insertion writes that sequence itself. -/
theorem kwkwkResolvesFromPrev : Obligations.KwkwkResolvesFromPrev := by
  intro code s x xs hr hlow heq hprev
  have hres : Resolved s (s.accept x (xs ++ [x])) (s.prev ++ [x]) := by
    rw [hprev]
    exact s.accept_resolved x (xs ++ [x]) (heq ▸ hlow)
  refine ⟨_, exec_kwkwk_prev hr hlow heq hprev, hres, ?_⟩
  have hlt : s.nextCode.toNat < 65536 := heq ▸ code.isLt
  obtain ⟨-, hentry, -⟩ := hres.grown (by simp [hprev]) hlt
  rw [heq, hentry, hprev]
  rfl

/-- Settles O10: R108's formula holds at the reset, and each code that resolves moves it by one place. -/
theorem widthOfTheNthCodeOfAnEpoch : Obligations.WidthOfTheNthCodeOfAnEpoch := by
  intro is s t hsize hnext hprev his hrun
  have hreset : EpochAt 0 s := ⟨hnext, hsize.trans (by decide), by simp [hprev]⟩
  obtain ⟨hnext', hsize', -⟩ := hreset.runAll his hrun
  rw [Nat.zero_add] at hnext' hsize'
  exact ⟨hnext', hsize'⟩

/-- Settles O23: READY is asked for first, then the row's condition on NEXT_CODE and PREV. -/
theorem codeOutOfPlaceIsRefused : Obligations.CodeOutOfPlaceIsRefused := by
  intro i s hi
  refine ⟨exec_code_of_not_ready hi, fun hr _ hlegal => ?_⟩
  cases i with
  | clear | lit => cases hlegal
  | dict code => exact exec_dict_mismatch hr (of_decide_eq_false hlegal)
  | kwkwk code => exact exec_kwkwk_mismatch hr (by simpa [Instr.legalIn] using hlegal)
  | illegalCode code => exact exec_illegalCode_mismatch hr (by simpa [Instr.legalIn] using hlegal)
  | _ => cases hi

/-- Settles O26: CLEAR resets the two counters, an insertion moves NEXT_CODE by one and CODESIZE by the width rule, and
an illegal code moves neither. -/
theorem countersMoveByOneOrReset : Obligations.CountersMoveByOneOrReset := by
  intro i s t hi hhigh h
  rw [exec_code i hi] at h
  cases runCode_next i s t h with
  | clear hr => exact ⟨.inr (.inr rfl), by simp, .inr (.inr rfl)⟩
  | resolved i _ hr first rest hs =>
    obtain ⟨hnext, hsize⟩ := s.accept_counters first rest
    omega
  | illegal code hr => exact ⟨.inl rfl, hhigh, .inl rfl⟩

end Sys2Proof.Machine
end

section
/-! The dictionary's sequences and the hardware realisations of R37 to R39 (spec/10_state.md section 6,
spec/41_decoder_codes.md R153). -/

namespace Sys2Proof.Machine

/-! ### The beginnings of an entry (R153 item 2) -/

/-- R153 item 2: a beginning of a dynamic entry is the entry itself or a beginning of an earlier one, down to a literal. -/
theorem State.Inv.entry_take {s : State} (h : s.Inv) {c : Nat} {seq : ByteSeq} {n : Nat} (hc : c ≠ 256)
    (hread : s.dict.read c = some seq) (hpos : 1 ≤ n) (hn : n ≤ seq.length) :
    ∃ p, p < s.nextCode.toNat ∧ s.dict.read p = some (seq.take n) := by
  induction c using Nat.strong_induction_on generalizing seq with
  | _ c ih =>
    by_cases hwhole : n = seq.length
    · exact ⟨c, (h.read_isSome c).1 (by rw [hread]; rfl), by rw [hwhole, List.take_length]; exact hread⟩
    by_cases hlit : c ≤ 255
    · have := Memory.read_literal_length hlit hread
      omega
    · rw [Memory.read_dynamic _ _ (by omega)] at hread
      obtain ⟨-, p, hearlier, hp, hparent⟩ := h.grown (c, seq) (Memory.dynamic_mem _ _ _ hread)
      dsimp only at hearlier hparent
      have hdrop : seq.dropLast.length = seq.length - 1 := List.length_dropLast
      obtain ⟨q, hq, hread'⟩ := ih p hearlier hp hparent (by omega)
      rw [List.dropLast_eq_take, List.take_take, Nat.min_eq_left (by omega)] at hread'
      exact ⟨q, hq, hread'⟩

/-! ### Walking a parent chain (R37) -/

namespace Chain

section
variable {chain : Chain} {c : Nat} {x : Byte}

/-- R27: below FIRST_CODE no chain is walked, and the dictionary's dynamic part is not read. -/
theorem read_eq_materialise (chain : Chain) (d : Memory) (hc : c < 257) : d.read c = some (chain.materialise c) := by
  simp only [Memory.read, materialise, walk, Config.literalMax, Config.clearCode]
  split
  · rfl
  · rw [if_pos (by omega), if_pos (by omega)]

/-- A walk from below FIRST_CODE ends at once. -/
theorem walk_low (chain chain' : Chain) (fuel fuel' : Nat) (hc : c < 257) :
    chain.walk (fuel + 1) c = chain'.walk (fuel' + 1) c := by
  simp only [walk, Config.literalMax, Config.clearCode]
  split
  · rfl
  · rw [if_pos (by omega), if_pos (by omega)]

/-- One link of a walk, from a dynamic code that has one. -/
theorem walk_link {q : BitVec 16} (fuel : Nat) (hc : 257 ≤ c) (hlink : chain[c - 257]? = some (q, x)) :
    chain.walk (fuel + 1) c = chain.walk fuel q.toNat ++ [x] := by
  simp only [walk, Config.literalMax, Config.clearCode, Config.firstCode, hlink]
  rw [if_neg (by omega), if_neg (by omega)]

/-- A walk ends at a dynamic code with no pair. -/
theorem walk_end (fuel : Nat) (hc : 257 ≤ c) (hlink : chain[c - 257]? = none) : chain.walk (fuel + 1) c = [] := by
  simp only [walk, Config.literalMax, Config.clearCode, Config.firstCode, hlink]
  rw [if_neg (by omega), if_neg (by omega)]

/-- Parents are smaller, so any number of links above the code is enough. -/
theorem walk_eq (hok : chain.ok) {fuel fuel' : Nat} (hf : c < fuel) (hf' : c < fuel') :
    chain.walk fuel c = chain.walk fuel' c := by
  induction fuel generalizing fuel' c with
  | zero => omega
  | succ fuel ih =>
    obtain ⟨fuel', rfl⟩ : ∃ m, fuel' = m + 1 := ⟨fuel' - 1, by omega⟩
    by_cases hlow : 257 ≤ c
    · match hlink : chain[c - 257]? with
      | none => rw [walk_end fuel hlow hlink, walk_end fuel' hlow hlink]
      | some (p, x) =>
        obtain ⟨hparent, -⟩ := hok _ p x hlink
        rw [walk_link fuel hlow hlink, walk_link fuel' hlow hlink, ih (fuel' := fuel') (by omega) (by omega)]
    · exact walk_low _ _ _ _ (Nat.lt_of_not_le hlow)

/-- A pair appended at the end is not met on a walk from an earlier code. -/
theorem walk_append (hok : chain.ok) (pair : BitVec 16 × Byte) (fuel : Nat) (hc : c < 257 + chain.length) :
    Chain.walk (chain ++ [pair]) fuel c = chain.walk fuel c := by
  induction fuel generalizing c with
  | zero => rfl
  | succ fuel ih =>
    by_cases hlow : 257 ≤ c
    · have hsame : (chain ++ [pair])[c - 257]? = chain[c - 257]? := List.getElem?_append_left (by omega)
      match hlink : chain[c - 257]? with
      | none => rw [walk_end fuel hlow hlink, walk_end fuel hlow (hsame.trans hlink)]
      | some (p, x) =>
        obtain ⟨hparent, -⟩ := hok _ p x hlink
        rw [walk_link fuel hlow hlink, walk_link fuel hlow (hsame.trans hlink), ih (by omega)]
    · exact walk_low _ _ _ _ (Nat.lt_of_not_le hlow)

theorem materialise_append (hok : chain.ok) (pair : BitVec 16 × Byte) (hc : c < 257 + chain.length) :
    Chain.materialise (chain ++ [pair]) c = chain.materialise c := walk_append hok pair (c + 1) hc

/-- R37: the appended pair materialises as its parent's sequence and its byte. -/
theorem materialise_last (hok : chain.ok) (p : BitVec 16) (x : Byte) (hp : p.toNat < 257 + chain.length) :
    Chain.materialise (chain ++ [(p, x)]) (257 + chain.length) = chain.materialise p.toNat ++ [x] := by
  have hlink : (chain ++ [(p, x)])[257 + chain.length - 257]? = some (p, x) := by simp
  rw [materialise, walk_link _ (Nat.le_add_right _ _) hlink, walk_append hok _ _ hp,
    walk_eq hok hp p.toNat.lt_succ_self, materialise]

theorem ok_append (hok : chain.ok) {p : BitVec 16} (x : Byte) (hp : p.toNat < 257 + chain.length) (hp' : p.toNat ≠ 256) :
    Chain.ok (chain ++ [(p, x)]) := by
  intro i q y hlink
  by_cases hi : i < chain.length
  · exact hok i q y (by rwa [List.getElem?_append_left hi] at hlink)
  · have hi' : i = chain.length := by
      obtain ⟨hlt, -⟩ := List.getElem?_eq_some_iff.1 hlink
      simp only [List.length_append, List.length_singleton] at hlt
      omega
    obtain ⟨rfl, rfl⟩ : p = q ∧ x = y := by simpa [hi'] using hlink
    exact ⟨hi' ▸ hp, hp'⟩

end

/-- R37, R240: the empty chain represents the base dictionary. -/
theorem represents_base {s : State} (hnext : s.nextCode = 257#17) : Chain.represents [] s := by
  refine ⟨by simp [ok], by simp [hnext], fun c hc => ?_⟩
  exact read_eq_materialise [] s.dict (by simpa [hnext] using hc)

/-- R37: the pair of an insertion extends the chain to the dictionary after it. -/
theorem represents_grown {chain : Chain} {s t : State} {first : Byte} {rest : ByteSeq} (h : chain.represents s)
    (hlow : 257 ≤ s.nextCode.toNat) (hres : Resolved s t (first :: rest)) (hne : s.prev ≠ [])
    (hlt : s.nextCode.toNat < 65536) {p : BitVec 16} (hp : p.toNat < s.nextCode.toNat) (hp' : p.toNat ≠ 256)
    (hprev : s.dict.read p.toNat = some s.prev) : Chain.represents (chain ++ [(p, first)]) t := by
  obtain ⟨hok, hlen, hread⟩ := h
  obtain ⟨hnext, hnew, hold, -⟩ := hres.grown hne hlt
  have hend : s.nextCode.toNat = 257 + chain.length := by omega
  refine ⟨ok_append hok first (hend ▸ hp) hp', by simp only [List.length_append, List.length_singleton]; omega,
    fun c hc => ?_⟩
  obtain hc | rfl : c < s.nextCode.toNat ∨ c = s.nextCode.toNat := by omega
  · rw [hold c hc.ne, hread c hc, materialise_append hok _ (hend ▸ hc)]
  · have hparent : chain.materialise p.toNat = s.prev := Option.some_inj.1 ((hread p.toNat hp).symm.trans hprev)
    rw [hnew, hend, materialise_last hok p first (hend ▸ hp), hparent]
    rfl

/-- R37: with no insertion the chain stays right. -/
theorem represents_kept {chain : Chain} {s t : State} {seq : ByteSeq} (h : chain.represents s) (hres : Resolved s t seq)
    (hkept : s.prev = [] ∨ s.nextCode.toNat = 65536) : chain.represents t := by
  obtain ⟨hok, hlen, hread⟩ := h
  obtain ⟨hnext, -, hsame⟩ := hres.kept hkept
  rw [represents, hnext]
  exact ⟨hok, hlen, fun c hc => (hsame c).trans (hread c hc)⟩

end Chain

/-! ### The obligations -/

/-- Settles O58: a code that resolves inserts PREV and the first byte of its sequence, the pair appended, or nothing. -/
theorem parentChainRefinesTheDictionary : Obligations.ParentChainRefinesTheDictionary := by
  intro chain s t i hs hchain hi h
  obtain ⟨first, rest, hres⟩ := exec_resolved hi hs.nextLow h
  split
  · rename_i hgrown
    intro p hp hp' hprev x hx
    obtain rfl : first = x := by simpa [hres.prev] using hx
    exact Chain.represents_grown hchain hs.nextLow hres hgrown.1 hgrown.2 hp hp' hprev
  · rename_i hkept
    have hhigh := hs.nextHigh
    refine Chain.represents_kept hchain hres ?_
    by_cases hprev : s.prev = []
    · exact .inl hprev
    · exact .inr (by have := not_and.1 hkept hprev; omega)

/-- Settles O59: each of the four events leaves NEXT_CODE at 257, below which no chain is walked. -/
theorem emptyChainRepresentsReset : Obligations.EmptyChainRepresentsReset := by
  refine ⟨Chain.represents_base rfl, fun s t h => Chain.represents_base ?_⟩
  obtain h | h | h | h := h
  · cases h; rfl
  · cases h; rfl
  · obtain ⟨q, rfl | ⟨k, info, -, -, rfl⟩⟩ := execInitHdr_next s t h <;> rfl
  · cases runCode_next .clear s t h with
    | clear hr => rfl
    | resolved _ hi => cases hi

/-- Settles O16: an entry's length and beginnings are those its line of earlier entries gives. -/
theorem sequenceLengths : Obligations.SequenceLengths := by
  intro s hs
  refine ⟨fun c seq hc hread => ?_, hs.prev_length, fun c seq n hc hread hpos hn => ?_⟩
  · have hlen := hs.entry_length c seq hc hread
    have hlt : c < s.nextCode.toNat := (hs.read_isSome c).1 (by rw [hread]; rfl)
    have hhigh := hs.nextHigh
    omega
  · exact hs.entry_take (by omega) hread hpos hn

/-- Settles O60: a non-empty PREV is an entry, so its index has 16 bits; OUTQ is a suffix of PREV, shorter than 2 ^ 16. -/
theorem prevAndOutqHaveExactRealisations : Obligations.PrevAndOutqHaveExactRealisations := by
  intro s hs
  constructor
  · by_cases hprev : s.prev = []
    · exact ⟨0#16, by simp [prevOf, State.prevValid, hprev]⟩
    · obtain ⟨p, hlt, -, hread⟩ := hs.inv.prev hprev
      have hhigh := hs.inv.nextHigh
      have hp : (BitVec.ofNat 16 p).toNat = p := Nat.mod_eq_of_lt (by omega)
      exact ⟨BitVec.ofNat 16 p, by rw [prevOf, if_pos (s.prevValid_iff.2 hprev), hp, hread]⟩
  · have hlen := hs.outQ_length
    have hrem : (BitVec.ofNat 16 s.outQ.length).toNat = s.outQ.length := Nat.mod_eq_of_lt (by omega)
    refine ⟨BitVec.ofNat 16 s.outQ.length, ?_⟩
    rw [outOf, hrem]
    obtain hempty | ⟨front, -, hsuffix⟩ := hs.out
    · simp [hempty]
    · rw [hsuffix, List.length_append, Nat.add_sub_cancel, List.drop_left]

end Sys2Proof.Machine
end

section
/-! The bit reader's bounds, its failures, and the fetch of a packed code (spec/40_bit_reader.md R124, R128, R131,
spec/20_memory.md R63, spec/30_encoding.md R94, R108). -/

namespace Sys2Proof.Machine

/-! ### One call -/

section
variable {n m : Nat} {s t : State} {v : BitVec 64}

/-- R128: too few bits before the source's failure. -/
theorem State.brGet_of_failed {e : BitVec 24} (hn : n ≤ 64) (hfew : s.bitsLeft < n) (hterm : s.src.term = .err e) :
    ∃ t, s.brGet n = some (.ioErr e, t) ∧ BrShort n s t := by
  obtain ⟨henough, -⟩ | ⟨-, hend, -⟩ | ⟨-, e', t, herr, hget⟩ | ⟨-, hsilent, -⟩ := s.brGet_total n hn
  · omega
  · simp [hterm] at hend
  · obtain rfl : e = e' := by simpa [hterm] using herr
    obtain ⟨hshort, -⟩ := s.brGet_short n hn t _ hget (by simp)
    exact ⟨t, hget, hshort⟩
  · simp [hterm] at hsilent

/-- R223: too few bits before the source falls silent. -/
theorem State.brGet_of_silent (hn : n ≤ 64) (hfew : s.bitsLeft < n) (hterm : s.src.term = .silent) :
    s.brGet n = none := by
  obtain ⟨henough, -⟩ | ⟨-, hend, -⟩ | ⟨-, e, t, herr, -⟩ | ⟨-, -, hget⟩ := s.brGet_total n hn
  · omega
  · simp [hterm] at hend
  · simp [hterm] at herr
  · exact hget

/-- R125: a call that pulled nothing leaves the source as it was. -/
theorem BrValue.src_eq (h : BrValue n s t v 0) : t.src = s.src := by
  change Source.mk t.src.bytes t.src.term t.src.pulls t.src.taken = s.src
  rw [h.bytes, h.keeps.term, h.pulls, h.taken]
  rfl

theorem BrValue.bitCnt_le (h : BrValue n s t v m) (hb : s.bitCnt.toNat ≤ 71) : t.bitCnt.toNat ≤ 71 := by
  have hcnt := h.cnt
  rcases h.small with rfl | hsmall <;> omega

/-- R123: with the stream's first `n` bits those of a number of `n` bits, the call returns that number and leaves the
rest. -/
theorem State.brGet_of_stream {c : Nat} {after : List Bool} (hn : n ≤ 64) (hc : c < 2 ^ n)
    (hcanon : s.bitBuf.toNat < 2 ^ s.bitCnt.toNat) (hstream : s.stream = bitsOf c n ++ after) :
    ∃ t m, s.brGet n = some (.value (BitVec.ofNat 64 c), t) ∧ BrValue n s t (BitVec.ofNat 64 c) m
      ∧ t.stream = after := by
  have henough : n ≤ s.bitsLeft := by
    rw [← s.stream_length, hstream, List.length_append, bitsOf_length]
    exact Nat.le_add_right _ _
  obtain ⟨v, t, m, hget, hvalue⟩ := State.brGet_of_enough hn henough
  have htake : s.stream.take n = bitsOf c n := by rw [hstream, List.take_left' (bitsOf_length c n)]
  have hv : v = BitVec.ofNat 64 c := by
    apply BitVec.eq_of_toNat_eq
    have hpow : 2 ^ n ≤ 2 ^ 64 := Nat.pow_le_pow_right (by decide) hn
    rw [hvalue.toNat_eq hcanon, htake, valueOfBits_bitsOf, Nat.mod_eq_of_lt hc, BitVec.toNat_ofNat,
      Nat.mod_eq_of_lt (Nat.lt_of_lt_of_le hc hpow)]
  subst hv
  obtain ⟨-, -, hrest⟩ := hvalue.bits hcanon
  refine ⟨t, m, hget, hvalue, hrest.trans ?_⟩
  change s.stream.drop n = after
  rw [hstream, List.drop_left' (bitsOf_length c n)]

end

/-! ### The obligations -/

/-- Settles O28: by the source's terminator the call answers NODATA or the error, and either way it has pulled all. -/
theorem bitReaderWithTooFewBits : Obligations.BitReaderWithTooFewBits := by
  intro n s hn hcanon hfew r hr
  obtain ⟨t, hget, hshort⟩ : ∃ t, s.brGet n.toNat = some (r, t) ∧ BrShort n.toNat s t := by
    obtain ⟨hterm, rfl⟩ | ⟨e, hterm, rfl⟩ := hr
    · exact State.brGet_of_ended hn hfew hterm
    · exact State.brGet_of_failed hn hfew hterm
  obtain ⟨hcanon', hbits⟩ := hshort.bits hcanon
  have hkeeps := hshort.keeps
  exact ⟨t.answer (.bits r), exec_brGet_of_brGet hn hget, by rw [State.answer_outbox, hkeeps.outbox], hbits, hcanon',
    hshort.bytes, hkeeps.term, hshort.pulls, hkeeps.st, hkeeps.err, hkeeps.errInfo, hkeeps.codeSize, hkeeps.nextCode,
    hkeeps.dict, hkeeps.prev, hkeeps.outQ, hkeeps.inbox⟩

/-- Settles O31: a call that pulled leaves less than a byte, one that did not takes bits away, and one that found too
few holds fewer than it was asked for. -/
theorem bitCountBound : Obligations.BitCountBound := by
  intro n s t hn hb h
  cases exec_next h with
  | code _ _ hi _ => cases hi
  | bits _ v m u _ hv =>
    refine ⟨hv.bitCnt_le hb, fun _ _ => ?_, fun r hr hout => ?_⟩
    · rcases hv.small with rfl | hsmall
      · exact .inr hv.src_eq
      · exact .inl (Nat.le_of_lt_succ hsmall)
    · exact absurd (by simpa [hv.keeps.outbox] using hout) (hr v ∘ Eq.symm)
  | fewBits _ r u _ hr hu =>
    have hfew := hu.few
    refine ⟨?_, fun v hout => ?_, fun _ _ _ => hfew⟩
    · rw [State.answer_bitCnt]; omega
    · exact absurd (by simpa [hu.keeps.outbox] using hout) (hr v)

/-- Settles O33: packing keeps the bits in order, so the stream begins with the number's. -/
theorem packedCodeIsReadBack : Obligations.PackedCodeIsReadBack := by
  intro n v after s hn hv hcnt hbuf hbytes
  obtain ⟨pad, hpad, hpack⟩ := streamBits_packBits (bitsOf v n.toNat ++ after)
  have hstream : s.stream = bitsOf v n.toNat ++ (after ++ List.replicate pad false) := by
    rw [State.stream, hbytes, hpack, State.bitQ, hcnt, List.append_assoc]
    rfl
  obtain ⟨t, m, hget, hvalue, hrest⟩ := State.brGet_of_stream hn hv (by simp [hcnt, hbuf]) hstream
  exact ⟨t.answer (.bits (.value (BitVec.ofNat 64 v))), pad, exec_brGet_of_brGet hn hget,
    by rw [State.answer_outbox, hvalue.keeps.outbox], hpad, hrest⟩

/-- Settles O34: a code of at most 16 bits is fetched whole, and classified in the state it was fetched in. -/
theorem assembledCodeIsFetched : Obligations.AssembledCodeIsFetched := by
  intro j c rest pad s hr hcanon hsize hc hstream
  have hstream' : s.stream = bitsOf c.toNat (epochWidth j)
      ++ (codeStreamBits (if c.toNat = 256 then 0 else j + 1) rest ++ pad) := by
    rw [← List.append_assoc]
    exact hstream
  have hwidth : epochWidth j ≤ 64 := Nat.le_trans (Nat.min_le_left _ _) (by decide)
  obtain ⟨t, m, hget, hvalue, hrest⟩ := State.brGet_of_stream hwidth hc hcanon hstream'
  have hctx : t.ctx = s.ctx := by rw [State.ctx, hvalue.keeps.nextCode, hvalue.keeps.prev, State.ctx]
  have hcode : (BitVec.ofNat 64 c.toNat).setWidth 16 = c := by
    apply BitVec.eq_of_toNat_eq
    rw [BitVec.toNat_setWidth, BitVec.toNat_ofNat]
    omega
  refine ⟨t, ?_, hctx, hrest⟩
  rw [exec_code _ (decodeCode_isCode _ _)]
  simp only [advance, State.fetchCode, if_pos hr, hsize, hget, hctx, hcode]

/-- Settles O35: what a fetch pulls and what it leaves in BITQ differ by CODESIZE. -/
theorem codeFetchMovesTheCursor : Obligations.CodeFetchMovesTheCursor := by
  intro hdr s t v hget
  obtain ⟨m, hvalue⟩ := s.brGet_value _ (codeSize_le s) t v hget
  have hcnt := hvalue.cnt
  have htaken := hvalue.taken
  simp only [State.cursor]
  omega

/-- Settles O57: an illegal code writes the record alone after a fetch of CODESIZE bits, and a failed source after one
that pulled all; the clean end and the other classes do not fault. -/
theorem faultingDecodeStepIsPrecise : Obligations.FaultingDecodeStepIsPrecise := by
  intro s t hr h hfault
  cases advance_next s t h with
  | code v m u t _ hv ht =>
    have hkeeps := hv.keeps
    generalize decodeCode u.ctx (v.setWidth 16) = i at ht
    cases ht with
    | clear hr' => simp [hr'] at hfault
    | resolved i _ hr' first rest _ => simp [hr'] at hfault
    | illegal code _ =>
      exact ⟨hkeeps.dict, hkeeps.nextCode, hkeeps.codeSize, hkeeps.prev, hkeeps.outQ, .inl rfl, fun _ => hv.bitsLeft, nofun⟩
  | ended u _ _ => cases hfault
  | failed e u _ hu _ =>
    have hkeeps := hu.keeps
    exact ⟨hkeeps.dict, hkeeps.nextCode, hkeeps.codeSize, hkeeps.prev, hkeeps.outQ, .inr rfl, nofun,
      fun _ => ⟨hu.cnt, hu.bytes⟩⟩

end Sys2Proof.Machine
end

section
/-! Phases, answers and errors of the host commands (spec/10_state.md R23, spec/42_host_commands.md R180, R184 to R188,
spec/60_exceptions.md R214, R217, R223), and what a reset forgets (spec/70_reset_and_hazards.md R242, R157). -/

namespace Sys2Proof.Machine

/-! ### READ in every phase (R184, R185) -/

section
variable {k : Nat} {s t u : State}

/-- R185: the loop of READ ends when the source answers every pull, and when it has nothing to do. -/
theorem exists_readRun (hinv : s.Inv) (hends : s.src.term ≠ .silent ∨ k ≤ s.outQ.length ∨ s.st = .eos) :
    ∃ u, ReadRun k s u := by
  obtain hterm | hqueued | heos := hends
  · obtain ⟨u, hloop⟩ | ⟨-, hsilent⟩ := readLoop_completes k (s.readFuel k) s hinv
    · exact ⟨u, (readLoop_fuel k s u).1 hloop⟩
    · exact absurd hsilent hterm
  · exact ⟨s, .stop s fun h => Nat.not_lt.2 hqueued h.1⟩
  · exact ⟨s, .stop s fun h => by simp [heos] at h⟩

/-- R214: the record of an I/O error met by a decode step is the source's code. -/
theorem Advance.ioRecord (h : Advance s t) (hfault : t.st = .fault) (hio : t.err = .io) :
    s.src.term = .err t.errInfo := by
  cases h with
  | code v m u t hr hv ht =>
    generalize decodeCode u.ctx (v.setWidth 16) = i at ht
    cases ht with
    | clear hr' => simp [hr'] at hfault
    | resolved i _ hr' first rest _ => simp [hr'] at hfault
    | illegal code _ => cases hio
  | ended u _ _ => cases hfault
  | failed e u _ _ he => exact he

theorem ReadRun.ioRecord (h : ReadRun k s t) (hs : s.st ≠ .fault) (hfault : t.st = .fault) (hio : t.err = .io) :
    s.src.term = .err t.errInfo := by
  induction h with
  | stop s _ => exact absurd hfault hs
  | more s u t _ _ hadv hrest ih =>
    have hstep := advance_next s u hadv
    by_cases hu : u.st = .fault
    · rw [hrest.closed (by simp [hu])] at hio ⊢
      exact hstep.ioRecord hu hio
    · rw [← hstep.loopKeeps.term]
      exact ih hu hfault hio

/-- R186: RC of a READ whose loop met an error. -/
theorem State.readRc_of_fault {e : ErrKind} (h : s.st = .fault) (he : s.err = e) : s.readRc = e.rc :=
  he ▸ if_pos h

theorem State.readRc_of_open (h : s.st ≠ .fault) : s.readRc = 0#4 := if_neg h

/-- R223: a decode step waits when the stream cannot give it a code and the source never answers. -/
theorem advance_of_silent (hr : s.st = .ready) (hterm : s.src.term = .silent) (hfew : s.bitsLeft < s.codeSize.toNat) :
    advance s = .fault .sourceSilent := by
  simp only [advance, State.fetchCode, if_pos hr, State.brGet_of_silent (codeSize_le s) hfew hterm]

end

/-! ### What INIT forgets (R242) -/

/-- R242: a new stream depends on the engine's state before in its phase alone, which both INITs then set. -/
theorem State.newStream_eq {s s' : State} (hbytes : s.src.bytes = s'.src.bytes) (hterm : s.src.term = s'.src.term)
    (hin : s.inbox = s'.inbox) (hout : s.outbox = s'.outbox) : s.newStream = { s'.newStream with st := s.st } := by
  simp [State.newStream, State.resetDict, Source.restart, hbytes, hterm, hin, hout]

/-! ### The obligations -/

/-- Settles O17: way by way, an instruction that completes leaves the phase or enters the one its row names. -/
theorem phaseChanges : Obligations.PhaseChanges := by
  intro i s t h hne
  cases exec_next h with
  | code i t _ hcode =>
    cases hcode with
    | clear hr => exact absurd rfl hne
    | resolved _ _ hr first rest _ => exact absurd (s.accept_st first rest) hne
    | illegal code hr => exact ⟨nofun, nofun, nofun, fun _ => .inr ⟨hr, .inr ⟨code, rfl⟩⟩⟩
  | initRaw => exact ⟨nofun, fun _ => .inl rfl, nofun, nofun⟩
  | opened q => exact ⟨nofun, fun _ => .inr rfl, nofun, nofun⟩
  | headerFault q k info _ _ => exact ⟨nofun, nofun, nofun, fun _ => .inl rfl⟩
  | read k u hopen hrun =>
    have hr : s.st = .ready := by
      by_contra hclosed
      rw [hrun.closed hclosed] at hne
      exact hne rfl
    refine ⟨fun hu => absurd hu (hrun.ne_uninit hopen), fun hu => absurd (hu.trans hr.symm) hne,
      fun _ => ⟨hr, k, rfl⟩, fun _ => .inr ⟨hr, .inl ⟨k, rfl⟩⟩⟩
  | release => exact ⟨fun _ => rfl, nofun, nofun, nofun⟩
  | notOpen | afterFault | status | illegalCmd | pulled => exact absurd rfl hne
  | bits n v m u _ hv => exact absurd hv.keeps.st hne
  | fewBits n r u _ _ hu => exact absurd hu.keeps.st hne

/-- Settles O37: each pull that is needed is not there, so each of the four stops where it pulls. -/
theorem silentSourceLeavesNoStep : Obligations.SilentSourceLeavesNoStep := by
  intro s hterm
  refine ⟨fun hbytes => ?_, fun n hn hfew => ?_, fun hfew => execInitHdr_silent s hfew hterm, fun k hr hk hfew => ?_⟩
  · simp [exec, execSrcPull, Source.pull, hbytes, hterm]
  · simp only [exec, execBrGet, Config.brMaxWidth, if_pos hn, State.brGet_of_silent hn hfew hterm]
  · rw [exec_read_eq_mapNext k (.inl hr), State.readFuel, readLoop, if_pos ⟨hk, hr⟩, advance_of_silent hr hterm hfew]
    rfl

/-- Settles O40: INIT HDR and the decode steps record the source's code, and 24 bits hold it. -/
theorem ioErrorCodeIsUnchanged : Obligations.IoErrorCodeIsUnchanged := by
  intro bits e s t _ hbits hterm h hfault hio
  have hrecord : s.src.term = .err t.errInfo := by
    obtain h | ⟨k, hs, h⟩ := h
    · obtain ⟨q, rfl | ⟨kind, info, -, hinfo, rfl⟩⟩ := execInitHdr_next s t h
      · cases hfault
      · exact hinfo hio
    · cases exec_next h with
      | code _ _ hi _ => cases hi
      | notOpen _ hst => exact absurd hfault (by simp [hst])
      | afterFault _ hst => exact absurd hst hs
      | read _ u _ hrun => exact hrun.ioRecord hs hfault hio
  have hinfo : e.setWidth 24 = t.errInfo := by simpa [hterm] using hrecord
  rw [← hinfo]
  exact BitVec.toNat_setWidth_of_le hbits

/-- Settles O44: the loop ends, it leaves the inbox and the answers, and the delivery answers with COUNT the bytes it
takes and RC that of the record. -/
theorem readCompletes : Obligations.ReadCompletes := by
  intro k s hinv hopen hends
  obtain ⟨u, hrun⟩ := exists_readRun (k := k.toNat) hinv hends
  obtain ⟨hinbox, houtbox, hterm, hbytes⟩ := hrun.loopKeeps
  have hlen : (u.outQ.take k.toNat).length = min u.outQ.length k.toNat := by rw [List.length_take, Nat.min_comm]
  have hcount : (respCount (resp32 u.readRc (BitVec.ofNat 24 (min u.outQ.length k.toNat)))).toNat
      = (u.outQ.take k.toNat).length := by
    rw [respCount_resp32, hlen, BitVec.toNat_ofNat]
    omega
  have hrc : respRc (resp32 u.readRc (BitVec.ofNat 24 (min u.outQ.length k.toNat))) = u.readRc := respRc_resp32 _ _
  refine ⟨u.deliver k.toNat, _, _, (exec_read_open hopen).2 ⟨u, hrun, rfl⟩, by rw [State.deliver_outbox, houtbox],
    hinbox, hcount, by omega, hterm, hbytes, reserved_resp32 _ _, hcount, fun hok => ?_, fun hfault => ?_⟩
  · exact hrc.trans (State.readRc_of_open hok)
  · have hs : s.st ≠ .fault := by rcases hopen with hs | hs <;> simp [hs]
    exact (hrun.faultErr hs hfault).imp (fun herr => ⟨herr, hrc.trans (State.readRc_of_fault hfault herr)⟩)
      (fun herr => ⟨herr, hrc.trans (State.readRc_of_fault hfault herr)⟩)

/-- Settles O45: with no stream open READ answers at once, and with one open its loop ends or waits. -/
theorem readStopsOnlyOnASilentSource : Obligations.ReadStopsOnlyOnASilentSource := by
  intro k s hinv
  have run (hopen : s.Open) :
      (∃ t, exec (.read k) s = .next t) ∨ (exec (.read k) s = .fault .sourceSilent ∧ s.src.term = .silent) := by
    rw [exec_read_eq_mapNext k hopen]
    obtain ⟨u, hloop⟩ | ⟨hloop, hsilent⟩ := readLoop_completes k.toNat (s.readFuel k.toNat) s hinv
    · exact .inl ⟨_, congrArg (mapNext (State.deliver k.toNat)) hloop⟩
    · exact .inr ⟨congrArg (mapNext (State.deliver k.toNat)) hloop, hsilent⟩
  cases hst : s.st with
  | uninit => exact .inl ⟨_, exec_read_uninit k hst⟩
  | fault => exact .inl ⟨_, exec_read_fault k hst⟩
  | ready => exact run (.inl hst)
  | eos => exact run (.inr hst)

/-- Settles O55: every way a host command completes ends in one answer, and the loop of READ gives none before it. -/
theorem oneAnswerPerCommand : Obligations.OneAnswerPerCommand := by
  intro i s t hi h
  cases exec_next h with
  | code i t hc _ => exact absurd hi (by simp [Instr.isHost_eq_false_of_isCode hc])
  | read k u _ hrun =>
    obtain ⟨hinbox, houtbox, -, -⟩ := hrun.loopKeeps
    exact ⟨hinbox, _, _, _, by rw [State.deliver_outbox, houtbox]⟩
  | initRaw | opened | headerFault | notOpen | afterFault | release | status | illegalCmd => exact ⟨rfl, _, _, _, rfl⟩
  | bits | fewBits | pulled => cases hi

/-- Settles O56: READ, STATUS and an illegal word only answer, and the classes are refused outside READY. -/
theorem faultIsSticky : Obligations.FaultIsSticky := by
  intro i s hfault _ hraw hhdr hrelease
  have answered {r : Response} (h : exec i s = .next (s.answer r)) :
      ∃ t, exec i s = .next t ∧ SameEngine s t ∧ t.src = s.src :=
    ⟨_, h, ⟨rfl, rfl, rfl, rfl, rfl, rfl, rfl, rfl, rfl, rfl⟩, rfl⟩
  refine ⟨fun hi => ?_, fun hi => exec_code_of_not_ready hi (by simp [hfault])⟩
  cases i with
  | initRaw => exact absurd rfl hraw
  | initHdr => exact absurd rfl hhdr
  | release => exact absurd rfl hrelease
  | read k => exact answered (exec_read_fault k hfault)
  | status => exact answered rfl
  | illegalCmd w => exact answered rfl
  | _ => cases hi

/-- Settles O2: the two new streams differ in the phase alone, which INIT RAW sets and the header check sets or faults. -/
theorem initForgetsTheEngine : Obligations.InitForgetsTheEngine := by
  intro s s' hbytes hterm hin hout
  have hnew := State.newStream_eq hbytes hterm hin hout
  have hraw : exec .initRaw s = exec .initRaw s' := by simp only [exec, execInitRaw, hnew]
  have hhdr : exec .initHdr s = exec .initHdr s' := by
    simp only [exec, execInitHdr, hnew]
    rfl
  exact ⟨fun t t' h h' => Host.Outcome.next.inj (h.symm.trans (hraw.trans h')), fun t h => hhdr.symm.trans h⟩

/-- Settles O4: CLEAR and INIT RAW both end in `reset_dict()`, which writes constants. -/
theorem clearLeavesWhatInitLeaves : Obligations.ClearLeavesWhatInitLeaves := by
  intro s s' t t' h h'
  cases h'
  cases runCode_next .clear s t h with
  | clear hr => exact ⟨rfl, rfl, rfl, rfl⟩
  | resolved _ hi => cases hi

/-- Settles O49: RELEASE is `powerOn` and an answer. -/
theorem releaseCompletes : Obligations.ReleaseCompletes := fun _ => rfl

end Sys2Proof.Machine
end
